-- ==== Sys2Proof/Word.lean ====
section
/-! DEFINITION. The bit vectors of the Byte FIFO: the data byte (00 R7, DW = 8), the request word
(30 R60, 11 bits) and the 2-bit status code (30 R66). Everything else is a name, a count or an index. -/

namespace Sys2Proof

/-- A data byte, an unsigned 8-bit value the block never inspects (00 R8). -/
abbrev Byte := BitVec 8

/-- A request word, exactly 11 bits: `op` in bits 10..8, `wdata` in bits 7..0 (30 R60). -/
abbrev Request := BitVec 11

end Sys2Proof
end

