-- ==== Sys2Proof/Config.lean ====
section
/-! DEFINITION. The parameters of an instance (00 R7) and the free values: what the spec leaves open
is an opaque constant here, so that no proof can see what it is. -/

namespace Sys2Proof

/-- The two request ports, the block's only agents (40 R80). -/
inductive Port where
  | prod
  | cons
  deriving DecidableEq, Repr, Inhabited

/-- The other port. -/
def Port.other : Port → Port
  | .prod => .cons
  | .cons => .prod

/-- The host's two execution contexts (00 R10, 40 R80). -/
inductive HostContext where
  | foreground
  | asynchronous
  deriving DecidableEq, Repr

/-- ROLE: which host context drives which port (00 R7, 60 R169). -/
structure Role where
  prodContext : HostContext
  consContext : HostContext
  deriving DecidableEq, Repr

/-- The receive FIFO's roles (60 R169). -/
def Role.receive : Role := ⟨.asynchronous, .foreground⟩

/-- The transmit FIFO's roles (60 R169). -/
def Role.transmit : Role := ⟨.foreground, .asynchronous⟩

/-- CLOCKING: whether the two ports share one clock (00 R7, D26). -/
inductive Clocking where
  | sharedClock
  | twoClocks
  deriving DecidableEq, Repr

/-- The parameters of one instance (00 R7), fixed for its lifetime (10 R22). `cap_pos` makes the
illegal `CAP = 0` (U6) a configuration that cannot be built. -/
structure Config where
  cap : Nat
  cap_pos : 1 ≤ cap
  role : Role
  clocking : Clocking
  lat : Nat
  deriving DecidableEq, Repr

/-- The configuration of `State.reset`. DESIGN CHOICE (log 1), unsafe for a claim that rests on it:
the spec leaves every parameter open per instance; 4 is the capacity of its concrete scenario (W8). -/
def Config.reference : Config := ⟨4, by decide, Role.receive, .sharedClock, 0⟩

/-- FREE VALUE (10 R37, U1; log 3): the byte that slot `slot` holds after the launch whose draw is
`launch`. "A model takes a draw, never a fixed value." Safe: nothing is known of it. -/
opaque Config.resetByte (launch slot : Nat) : Byte

/-- FREE VALUE (40 R82, U7; log 4): the port the arbiter performs first at the `n`-th contest it
decides freely in the launch whose draw is `launch`. Safe: nothing is known of it. -/
opaque Config.arbiter (launch n : Nat) : Port

end Sys2Proof
end

