-- ==== Sys2Proof/Syntax.lean ====
section
/-! DEFINITION. The six operations, one constructor for each row of spec/opcode_table.json (30 R62). -/

namespace Sys2Proof

/-- An operation as decoded (30 R70). PUT's byte is the only operand of any operation, and the
instance is not an operand (30 R61). -/
inductive Instr where
  /-- CLEAR (41 R100). -/
  | clear
  /-- CAPACITY (41 R101). -/
  | capacity
  /-- PUT of a byte (42 R110). -/
  | put (b : Byte)
  /-- GET (42 R111). -/
  | get
  /-- PEEK (42 R112). -/
  | peek
  /-- COUNT (43 R140). -/
  | count
  deriving DecidableEq, Repr

end Sys2Proof
end

