-- ==== Sys2Proof/Decode.lean ====
section
/-! DEFINITION. The decoder, total on every port and word (30 R70), the table it is read from
(30 R62), and after it the encoder of canonical words. -/

namespace Sys2Proof

/-- `req.op = req[10:8]` (30 R60). -/
def opField (w : Request) : BitVec 3 := w.extractLsb' 8 3

/-- `req.wdata = req[7:0]` (30 R60). -/
def wdataField (w : Request) : Byte := w.extractLsb' 0 8

/-- The operation an `op` code selects, PUT with its byte (30 R62); none for the reserved codes
`000` and `111` (30 R63). -/
def decodeOp (w : Request) : Option Instr :=
  match (opField w).toNat with
  | 1 => some .clear
  | 2 => some .capacity
  | 3 => some (.put (wdataField w))
  | 4 => some .get
  | 5 => some .peek
  | 6 => some .count
  | _ => none

/-- Port legality (30 R64): PUT on PROD only, GET and PEEK on CONS only, the rest on both. -/
def Instr.legalOn : Instr → Port → Bool
  | .put _, .cons => false
  | .get, .prod => false
  | .peek, .prod => false
  | .put _, .prod => true
  | .get, .cons => true
  | .peek, .cons => true
  | .clear, _ => true
  | .capacity, _ => true
  | .count, _ => true

/-- Why a request spells no operation legal on its port (30 R70). -/
inductive IllegalReason where
  | reservedOpcode
  | wrongPort
  deriving DecidableEq, Repr

/-- What a request decodes to (30 R70): an operation, or Illegal with the reason. -/
inductive Decoded where
  | op (i : Instr)
  | illegal (r : IllegalReason)
  deriving DecidableEq, Repr

/-- `decode : (port, 11-bit word) -> Op | Illegal` (30 R70): the opcode is looked at first, then
the port (40 R86). -/
def decode (p : Port) (w : Request) : Decoded :=
  match decodeOp w with
  | none => .illegal .reservedOpcode
  | some i => if i.legalOn p then .op i else .illegal .wrongPort

/-- A row of the opcode map: a word `w` belongs to it when `w` masked is `bits` (30 R62). -/
structure OpcodeRow where
  mnemonic : String
  mask : Request
  bits : Request
  deriving DecidableEq, Repr

/-- The opcode map as spec/opcode_table.json gives it (30 R62). -/
def opcodeRows : List OpcodeRow :=
  [⟨"CLEAR", 0x700#11, 0x100#11⟩, ⟨"CAPACITY", 0x700#11, 0x200#11⟩, ⟨"PUT", 0x700#11, 0x300#11⟩,
   ⟨"GET", 0x700#11, 0x400#11⟩, ⟨"PEEK", 0x700#11, 0x500#11⟩, ⟨"COUNT", 0x700#11, 0x600#11⟩]

/-- The row holds the word. -/
def OpcodeRow.holds (r : OpcodeRow) (w : Request) : Bool := (w &&& r.mask) == r.bits

/-- The mnemonic of an operation (30 R71). -/
def Instr.mnemonic : Instr → String
  | .clear => "CLEAR"
  | .capacity => "CAPACITY"
  | .put _ => "PUT"
  | .get => "GET"
  | .peek => "PEEK"
  | .count => "COUNT"

/-- The `op` code of an operation (30 R62). -/
def Instr.opcode : Instr → BitVec 3
  | .clear => 0b001#3
  | .capacity => 0b010#3
  | .put _ => 0b011#3
  | .get => 0b100#3
  | .peek => 0b101#3
  | .count => 0b110#3

/-- The `wdata` field of the canonical word: PUT's byte, 0 for an operation without an operand
(30 R62). -/
def Instr.wdata : Instr → Byte
  | .put b => b
  | .clear => 0#8
  | .capacity => 0#8
  | .get => 0#8
  | .peek => 0#8
  | .count => 0#8

/-- The canonical request word `{op, wdata}` (30 R60, R62). -/
def encode (i : Instr) : Request := i.opcode ++ i.wdata

/-- A port on which the operation is legal: PROD where it may be, CONS for GET and PEEK (log 14). -/
def Instr.homePort (i : Instr) : Port := if i.legalOn .prod then .prod else .cons

/-- The host's table word: bits `nbits - 1 .. 0` of `w`, bit 0 the least significant bit of the request
word. A request word is exactly 11 bits (30 R69), so a set bit above bit 10 is no request. The
word is decoded on a port on which its operation is legal (log 14). -/
def decodeTableWord (nbits w : Nat) : Option Instr :=
  if w % 2 ^ nbits < 2 ^ 11 then
    match decode .prod (BitVec.ofNat 11 (w % 2 ^ nbits)), decode .cons (BitVec.ofNat 11 (w % 2 ^ nbits)) with
    | .op i, _ => some i
    | .illegal _, .op i => some i
    | .illegal _, .illegal _ => none
  else none

end Sys2Proof
end

