-- ==== Sys2Proof/Machine/State.lean ====
section
/-! DEFINITION. The state of one FIFO instance (10 R20), of its two request ports (10 R35, R36) and of
the model-only records the spec names (10 R39), as plain data; the stops; the state after reset. -/

namespace Sys2Proof.Machine

/-- The response statuses (30 R66). -/
inductive Status where
  | ok
  | empty
  | full
  | illegal
  deriving DecidableEq, Repr

/-- A response: the pair (status, data) (30 R65). `data` is an unsigned number of RW bits. -/
structure Response where
  status : Status
  data : Nat
  deriving DecidableEq, Repr

/-- One event of the history: the port, the request word and its response (10 R39). -/
structure Event where
  port : Port
  req : Request
  resp : Response
  deriving DecidableEq, Repr

/-- The storage: the slots written since launch, as (slot, byte) pairs, slots strictly rising. What a
slot that is not listed reads as is `State.memRead` (log 3). -/
abbrev Memory := List Host.Cell

/-- One request port: its client's request list and sequence index (40 R81, 10 R35), its accepted and
unanswered request (10 R36) and the response last delivered to it (40 R85). -/
structure PortState where
  prog : List Request
  pi : Nat
  inFlight : Option Request
  resp : Option Response
  deriving DecidableEq, Repr

/-- Why the machine stops. No run from launch reaches one of these (the block has no stuck state,
40 R87), so each is safe. -/
inductive Fault where
  /-- PUT, GET and PEEK: the index register names a slot that does not exist (10 R21: slots are 0 to
  CAP - 1). Only in states that break 10 R28. Safe (log 9). -/
  | slotOutOfRange (slot : Nat)
  /-- Any operation executed while the port it is performed for has no accepted request: nothing
  issued it (40 R81). Safe (log 10). -/
  | noRequestInFlight
  /-- `performPort` asked to perform for a port with no pending request: the step of 40 R84 is enabled
  only for a pending request. `step` never asks for it. Safe (log 10). -/
  | portNotPending
  deriving DecidableEq, Repr

/-- What the model refuses. -/
inductive Refusal where
  /-- An instruction without a meaning yet; raised by `exec`'s arms alone. Safe. -/
  | notModelled (mnemonic : String)
  /-- `launch` with CAP = 0, not a legal configuration (U6). Safe (log 2). -/
  | zeroCapacity
  /-- `assertReset` during a run, whose effect the spec does not define (70 R192, U3). Safe (log 13). -/
  | resetDuringRun
  deriving DecidableEq, Repr

/-- The machine's state. -/
structure State where
  /-- The parameters (00 R7), which nothing writes (10 R22; log 1). -/
  cfg : Config
  /-- The storage (10 R21). -/
  buf : Memory
  /-- The read index (10 R23). -/
  rd : Nat
  /-- The write index (10 R24). -/
  wr : Nat
  /-- The count (10 R25). -/
  cnt : Nat
  /-- The producer port. -/
  prod : PortState
  /-- The consumer port. -/
  cons : PortState
  /-- The port whose request is being performed: the `p` of 40 R84. -/
  turn : Port
  /-- The event history, in perform order (10 R39, 40 R85). -/
  history : List Event
  /-- The sticky fault mark (10 R39, 60 R163). -/
  faultMark : Bool
  /-- MODEL'S OWN: the arbiter's coming choices, as far as an input fixes them (log 4). -/
  grants : List Port
  /-- MODEL'S OWN: how many choices the arbiter has drawn freely (log 4). -/
  arbDraws : Nat
  /-- MODEL'S OWN: which draw of the free values this launch took (log 3). -/
  launch : Nat
  deriving DecidableEq, Repr

/-- A port at reset: no request in flight, sequence index 0 (10 R37), and no client yet (log 8). -/
def PortState.reset : PortState := ⟨[], 0, none, none⟩

/-- The state after reset (10 R37, 70 R190) of an instance with configuration `c`, storage contents
being draw `n`. -/
def State.resetWith (c : Config) (n : Nat) : State where
  cfg := c
  buf := []
  rd := 0
  wr := 0
  cnt := 0
  prod := PortState.reset
  cons := PortState.reset
  turn := .prod
  history := []
  faultMark := false
  grants := []
  arbDraws := 0
  launch := n

/-- The machine right after reset, in the reference configuration (log 1). -/
def State.reset : State := State.resetWith Config.reference 0

end Sys2Proof.Machine
end

