-- ==== Sys2Proof/Machine/Widths.lean ====
section
/-! DEFINITION. Bit lengths and the widths that follow from CAP (00 R7, R8). -/

namespace Sys2Proof

/-- `bitlen(n)`: the number of binary digits of `n`, with `bitlen(0) = 0` (00 R8). -/
def bitlen (n : Nat) : Nat := if n = 0 then 0 else Nat.log2 n + 1

/-- `RW = max(8, bitlen(CAP))`: the width of the response's data field (00 R7). -/
def Config.rw (c : Config) : Nat := max 8 (bitlen c.cap)

/-- `IW = max(1, bitlen(CAP - 1))`: the width of an index register (00 R7). -/
def Config.iw (c : Config) : Nat := max 1 (bitlen (c.cap - 1))

/-- `CW = bitlen(CAP)`: the width of the count register (00 R7). -/
def Config.cw (c : Config) : Nat := bitlen c.cap

/-- `zext_RW(v)`, the value `v` in the RW bits of a data field (00 R8). Every value the spec puts there
fits, so nothing is cut off in a state that a run reaches (log 11). -/
def zextRw (c : Config) (v : Nat) : Nat := v % 2 ^ c.rw

end Sys2Proof
end

