-- ==== Sys2Proof/Machine/Response.lean ====
section
/-! DEFINITION. The response word and the software views of a response (30 R65 to R68). -/

namespace Sys2Proof.Machine

/-- The status codes (30 R66). -/
def Status.code : Status → BitVec 2
  | .ok => 0b00#2
  | .empty => 0b01#2
  | .full => 0b10#2
  | .illegal => 0b11#2

/-- The status a code stands for (30 R66); every code is one. -/
def Status.ofCode (c : BitVec 2) : Status :=
  match c.toNat with
  | 0 => .ok
  | 1 => .empty
  | 2 => .full
  | _ => .illegal

/-- `resp = {status[1:0], data[RW-1:0]}` (30 R65). -/
def Response.pack (c : Config) (r : Response) : BitVec (2 + c.rw) :=
  r.status.code ++ BitVec.ofNat c.rw r.data

/-- The status field, bits RW+1..RW of a response word (30 R65). -/
def respStatusField (c : Config) (w : BitVec (2 + c.rw)) : BitVec 2 := w.extractLsb' c.rw 2

/-- The data field, bits RW-1..0 of a response word (30 R65). -/
def respDataField (c : Config) (w : BitVec (2 + c.rw)) : BitVec c.rw := w.extractLsb' 0 c.rw

/-- The response a packed word stands for, read with its instance's RW (95 section 2.2). -/
def Response.unpack (c : Config) (w : BitVec (2 + c.rw)) : Response :=
  ⟨Status.ofCode (respStatusField c w), (respDataField c w).toNat⟩

/-- The widened-integer view of a GET or PEEK response (30 R68): the byte when OK, -1 when EMPTY; a GET
or PEEK response that is neither has no such view (log 18). -/
def Response.widened (r : Response) : Option Int :=
  match r.status with
  | .ok => some r.data
  | .empty => some (-1)
  | .full => none
  | .illegal => none

/-- The widened view in 16-bit two's complement, where -1 is `0xFFFF` (30 R68). -/
def Response.widened16 (r : Response) : Option (BitVec 16) := r.widened.map (BitVec.ofInt 16)

/-- PUT's boolean-like signal (30 R68): OK is true, FULL is false. -/
def Response.putSignal (r : Response) : Option Bool :=
  match r.status with
  | .ok => some true
  | .full => some false
  | .empty => none
  | .illegal => none

end Sys2Proof.Machine
end

