-- ==== Sys2Proof/Machine/Ops.lean ====
section
/-! DEFINITION. The named operations: storage, register writes, ports, `inc`, `respond`, and the one
shared rejection of an illegal request. Every meaning is written over these (00 R9). -/

namespace Sys2Proof.Machine

/-- What one operation answers. -/
abbrev Result := Host.Outcome State Fault Refusal

/-- The byte listed for slot `i`, if one has been written since launch. -/
def Memory.read? : Memory → Nat → Option Byte
  | [], _ => none
  | (a, b) :: m, i => if a = i then some b else Memory.read? m i

/-- The storage with byte `v` in slot `i`. -/
def Memory.write : Memory → Nat → Byte → Memory
  | [], i, v => [(i, v)]
  | (a, b) :: m, i, v =>
    if i < a then (i, v) :: (a, b) :: m
    else if i = a then (i, v) :: m
    else (a, b) :: Memory.write m i v

/-- Slots strictly rising, the first at least `lo`. -/
def Memory.risingFrom : Nat → Memory → Bool
  | _, [] => true
  | lo, (a, _) :: m => decide (lo ≤ a) && Memory.risingFrom (a + 1) m

/-- The canonical form: slots strictly rising. (An unlisted slot's lookup is `none`, which no entry
holds, so no entry equals what an unlisted slot reads as; log 3.) -/
def Memory.wf (m : Memory) : Bool := Memory.risingFrom 0 m

/-- Every listed slot exists (10 R21). -/
def Memory.inRange (cap : Nat) (m : Memory) : Bool := m.all fun e => decide (e.1 < cap)

/-- `MemRead(i, 1)` (00 R9): the byte in slot `i`; a slot nothing has written since launch holds this
launch's free draw (10 R37). -/
def State.memRead (s : State) (i : Nat) : Byte := (s.buf.read? i).getD (Config.resetByte s.launch i)

/-- `MemWrite(i, 1, v)` (00 R9). -/
def State.memWrite (s : State) (i : Nat) (v : Byte) : State := { s with buf := s.buf.write i v }

/-- `rd <- v`. -/
def State.setRd (s : State) (v : Nat) : State := { s with rd := v }

/-- `wr <- v`. -/
def State.setWr (s : State) (v : Nat) : State := { s with wr := v }

/-- `cnt <- v`. -/
def State.setCnt (s : State) (v : Nat) : State := { s with cnt := v }

/-- `inc(i) = (i + 1) mod CAP`, computed as 40 R91 says. -/
def State.inc (s : State) (i : Nat) : Nat := if i = s.cfg.cap - 1 then 0 else i + 1

/-- A port's state. -/
def State.port (s : State) : Port → PortState
  | .prod => s.prod
  | .cons => s.cons

/-- The state with a port's state replaced. -/
def State.setPort (s : State) (p : Port) (ps : PortState) : State :=
  match p with
  | .prod => { s with prod := ps }
  | .cons => { s with cons := ps }

/-- The port's pending request: `prog[p][pi[p]]`, while `pi[p] < length(prog[p])` (40 R81). -/
def PortState.pending (ps : PortState) : Option Request := ps.prog[ps.pi]?

/-- The port's state once its request has been answered: the response delivered, nothing in flight, the
index advanced by 1 (40 R85). -/
def PortState.answered (ps : PortState) (r : Response) : PortState :=
  ⟨ps.prog, ps.pi + 1, none, some r⟩

/-- The port accepts request `w`, which is then the one being performed (40 R81, R84). -/
def State.accept (s : State) (p : Port) (w : Request) : State :=
  { s.setPort p ⟨(s.port p).prog, (s.port p).pi, some w, (s.port p).resp⟩ with turn := p }

/-- The completion of a step (40 R85), for request `w` of the port being performed: the response is
delivered, the event appended, the index advanced. It writes nothing else. -/
def State.complete (s : State) (w : Request) (r : Response) : State :=
  { s.setPort s.turn ((s.port s.turn).answered r) with history := s.history ++ [⟨s.turn, w, r⟩] }

/-- `respond(status, data)` (00 R9, 40 R85). -/
def respond (st : Status) (data : Nat) (s : State) : Result :=
  match (s.port s.turn).inFlight with
  | none => .fault .noRequestInFlight
  | some w => .next (s.complete w ⟨st, data⟩)

/-- The fault mark set; nothing clears it (10 R39, 60 R163). -/
def State.markFault (s : State) : State := { s with faultMark := true }

/-- `raise IllegalRequest(req)` (00 R9, 60 R163): ILLEGAL with data 0, the block's state unchanged, and
the model's fault mark set. -/
def raiseIllegal (s : State) : Result := respond .illegal 0 s.markFault

/-- The legality check that comes before anything else (40 R86, 30 R64): an operation not legal on
the port being performed is rejected. -/
def whenLegal (i : Instr) (s : State) (k : Result) : Result :=
  if i.legalOn s.turn then k else raiseIllegal s

end Sys2Proof.Machine
end

