-- ==== Sys2Proof/Machine/Operands.lean ====
section
/-! DEFINITION. The operand forms: PUT's byte comes decoded in the instruction (30 R61); the storage
operands are implicit, `buf[wr]` for PUT and `buf[rd]` for GET and PEEK (20 R40, R44). -/

namespace Sys2Proof.Machine

/-- The slot PUT writes (20 R40). -/
def State.putSlot (s : State) : Nat := s.wr

/-- The slot GET and PEEK read (20 R40). -/
def State.headSlot (s : State) : Nat := s.rd

/-- An access to slot `i`, which must exist (10 R21). -/
def withSlot (s : State) (i : Nat) (k : Result) : Result :=
  if i < s.cfg.cap then k else .fault (.slotOutOfRange i)

end Sys2Proof.Machine
end

