-- ==== Sys2Proof/Machine/Flags.lean ====
section
/-! DEFINITION. The status predicates over the count (10 R32) and the outputs that show them (43 R141).
They are derived values: no operation writes them. -/

namespace Sys2Proof.Machine

/-- `EMPTY = (cnt = 0)` (10 R32). -/
def State.isEmpty (s : State) : Bool := decide (s.cnt = 0)

/-- `FULL = (cnt = CAP)`, on the exact count (10 R32, C1). -/
def State.isFull (s : State) : Bool := decide (s.cnt = s.cfg.cap)

/-- The level output `empty_o` (43 R141). -/
def State.emptyO (s : State) : Bool := s.isEmpty

/-- The level output `full_o` (43 R141). -/
def State.fullO (s : State) : Bool := s.isFull

end Sys2Proof.Machine
end

