-- ==== Sys2Proof/Machine/Control.lean ====
section
/-! DEFINITION. The control operations CLEAR and CAPACITY (41). -/

namespace Sys2Proof.Machine

/-- CLEAR (41 R100): the count and both indices to 0; `buf` is not written. -/
def execClear (s : State) : Result :=
  whenLegal .clear s (respond .ok 0 (((s.setCnt 0).setRd 0).setWr 0))

/-- CAPACITY (41 R101). -/
def execCapacity (s : State) : Result :=
  whenLegal .capacity s (respond .ok (zextRw s.cfg s.cfg.cap) s)

end Sys2Proof.Machine
end

