-- ==== Sys2Proof/Machine/DataTransfer.lean ====
section
/-! DEFINITION. The operations that move bytes: PUT, GET and PEEK (42). -/

namespace Sys2Proof.Machine

/-- PUT (42 R110): FULL with the byte discarded when `cnt = CAP`, else the byte stored at `wr`. -/
def execPut (b : Byte) (s : State) : Result :=
  whenLegal (.put b) s <|
    if s.isFull then respond .full 0 s
    else withSlot s s.putSlot
      (respond .ok 0 (((s.memWrite s.putSlot b).setWr (s.inc s.wr)).setCnt (s.cnt + 1)))

/-- GET (42 R111): EMPTY when `cnt = 0`, else the byte at `rd`, removed. -/
def execGet (s : State) : Result :=
  whenLegal .get s <|
    if s.isEmpty then respond .empty 0 s
    else withSlot s s.headSlot
      (respond .ok (zextRw s.cfg (s.memRead s.headSlot).toNat)
        ((s.setRd (s.inc s.rd)).setCnt (s.cnt - 1)))

/-- PEEK (42 R112): EMPTY when `cnt = 0`, else the byte at `rd`, which stays. -/
def execPeek (s : State) : Result :=
  whenLegal .peek s <|
    if s.isEmpty then respond .empty 0 s
    else withSlot s s.headSlot (respond .ok (zextRw s.cfg (s.memRead s.headSlot).toNat) s)

end Sys2Proof.Machine
end

