-- ==== Sys2Proof/Machine/StatusOps.lean ====
section
/-! DEFINITION. The status operation COUNT (43). -/

namespace Sys2Proof.Machine

/-- COUNT (43 R140): a snapshot of the count. -/
def execCount (s : State) : Result :=
  whenLegal .count s (respond .ok (zextRw s.cfg s.cnt) s)

end Sys2Proof.Machine
end

