-- ==== Sys2Proof/Machine/Dispatch.lean ====
section
/-! DEFINITION. One arm per operation: each is one direct call of its meaning. -/

namespace Sys2Proof.Machine

def exec (i : Instr) (s : State) : Host.Outcome State Fault Refusal :=
  match i with
  | .clear => Sys2Proof.Machine.execClear s
  | .capacity => Sys2Proof.Machine.execCapacity s
  | .put b => Sys2Proof.Machine.execPut b s
  | .get => Sys2Proof.Machine.execGet s
  | .peek => Sys2Proof.Machine.execPeek s
  | .count => Sys2Proof.Machine.execCount s

end Sys2Proof.Machine
end

