-- ==== Sys2Proof/Machine/Perform.lean ====
section
/-! DEFINITION. The atomic perform step of one port (40 R84), the arbiter's free choice (40 R82), and
how the next request is placed and picked. -/

namespace Sys2Proof.Machine

/-- The request word of the port being performed is decoded, opcode first and then port (40 R86), and
run or rejected (40 R84). -/
def runRequest (w : Request) (s : State) : Result :=
  match decode s.turn w with
  | .op i => exec i s
  | .illegal _ => raiseIllegal s

/-- `step(p)` (40 R84): port `p`'s pending request is accepted, decoded and performed as one
transition. It is enabled only for a pending request. -/
def performPort (p : Port) (s : State) : Result :=
  match (s.port p).pending with
  | none => .fault .portNotPending
  | some w => runRequest w (s.accept p w)

/-- The port has a pending request (40 R81). -/
def State.isPending (s : State) (p : Port) : Bool := (s.port p).pending.isSome

/-- The arbiter's choice when both ports have a pending request (40 R82): what the input fixes, else a
free draw (log 4). -/
def State.contested (s : State) : Port :=
  match s.grants with
  | g :: _ => g
  | [] => Config.arbiter s.launch s.arbDraws

/-- The port performed next: one with a pending request, whenever there is one (40 R87, R88). -/
def State.nextPort (s : State) : Option Port :=
  match s.isPending .prod, s.isPending .cons with
  | false, false => none
  | true, false => some .prod
  | false, true => some .cons
  | true, true => some s.contested

/-- Whether the next choice is a free draw: both ports pending and no choice given. -/
def State.drawsFreely (s : State) : Bool :=
  s.isPending .prod && s.isPending .cons && s.grants.isEmpty

/-- The arbiter's bookkeeping for one performed request: the choice is used up. -/
def State.granted (s : State) : State :=
  { s with grants := s.grants.tail, arbDraws := if s.drawsFreely then s.arbDraws + 1 else s.arbDraws }

/-- The request list with `w` as the next request to issue: it replaces the pending request, if any. -/
def PortState.placeNext (ps : PortState) (w : Request) : PortState :=
  ⟨ps.prog.take ps.pi ++ w :: ps.prog.drop (ps.pi + 1), (ps.prog.take ps.pi).length, ps.inFlight, ps.resp⟩

/-- Request `w` placed as port `p`'s next request, and port `p` chosen next. -/
def State.placeRequest (s : State) (p : Port) (w : Request) : State :=
  { s.setPort p ((s.port p).placeNext w) with grants := p :: s.grants }

/-- The port on which a word is placed to run: one on which its operation is legal (log 14). -/
def placePort (w : Request) : Port :=
  match decodeOp w with
  | some i => i.homePort
  | none => .prod

end Sys2Proof.Machine
end

