-- ==== Sys2Proof/Machine/Step.lean ====
section
/-! DEFINITION. One step of the machine: the arbiter picks a pending request and it is performed
(40 R82, R84). -/

namespace Sys2Proof.Machine

/-- One step. With no pending request on either port the run has ended (40 R90) and the block keeps its
state (40 R80; log 5). -/
def step (s : State) : Host.Outcome State Fault Refusal :=
  match s.nextPort with
  | none => .next s
  | some p => performPort p s.granted

/-- The table word placed as the next request of a port on which it is legal, that port chosen next:
the very next step performs it (log 8, log 14). -/
def State.withFetchWord (s : State) (nbits w : Nat) : State :=
  s.placeRequest (placePort (BitVec.ofNat 11 (w % 2 ^ nbits))) (BitVec.ofNat 11 (w % 2 ^ nbits))

end Sys2Proof.Machine
end

