-- ==== Sys2Proof/Machine/Launch.lean ====
section
/-! DEFINITION. The host's side of an instance: launching it (70 R190, R193), giving its clients their
request lists, and asserting reset (70 R192). -/

namespace Sys2Proof.Machine

/-- An instance launched with capacity `cap` (70 R190): `CAP = 0` is refused (U6). -/
def launch (cap : Nat) (role : Role) (clocking : Clocking) (lat draw : Nat) : Result :=
  if h : 1 ≤ cap then .next (State.resetWith ⟨cap, h, role, clocking, lat⟩ draw)
  else .refused .zeroCapacity

/-- The clients' request lists (40 R81), each to be issued from its start, and the perform order as far
as it is given (log 8). -/
def State.loadPrograms (s : State) (prodProg consProg : List Request) (order : List Port) : State :=
  { s with
    prod := ⟨prodProg, 0, s.prod.inFlight, s.prod.resp⟩
    cons := ⟨consProg, 0, s.cons.inFlight, s.cons.resp⟩
    grants := order }

/-- Nothing has been performed or accepted yet. -/
def State.atLaunch (s : State) : Bool :=
  decide (s.prod.pi = 0) && decide (s.cons.pi = 0) && s.history.isEmpty &&
    s.prod.inFlight.isNone && s.cons.inFlight.isNone

/-- Reset asserted. Reset belongs to the launch (70 R190): before the first request it leaves the reset
state with a new storage draw; once a request has been performed the spec does not define it and the
model refuses (70 R192, U3; log 13). -/
def assertReset (s : State) : Result :=
  if s.atLaunch then
    .next { State.resetWith s.cfg (s.launch + 1) with
      prod := ⟨s.prod.prog, 0, none, none⟩, cons := ⟨s.cons.prog, 0, none, none⟩, grants := s.grants }
  else .refused .resetDuringRun

end Sys2Proof.Machine
end

