-- ==== Sys2Proof/Machine/Assembler.lean ====
section
/-! DEFINITION. The textual form of requests (30 R71): the lines, how they assemble, and how a line is
read from characters. The lexical points the grammar leaves open are log 17. -/

namespace Sys2Proof.Machine

/-- The mnemonics (30 R71). -/
inductive Mnemonic where
  | clear
  | capacity
  | put
  | get
  | peek
  | count
  deriving DecidableEq, Repr

/-- The expected response a line may carry (30 R71); what it admits is `Expected.accepts` (log 19). -/
inductive Expected where
  | ok (data : Option Nat)
  | empty
  | full
  | illegal
  deriving DecidableEq, Repr

/-- A line after its port: an operation, or a raw request word (30 R71). -/
inductive AsmBody where
  | op (m : Mnemonic) (byte : Option Byte) (expected : Option Expected)
  | word (w : Request)
  deriving DecidableEq, Repr

/-- A line (30 R71). -/
structure AsmLine where
  port : Port
  body : AsmBody
  deriving DecidableEq, Repr

/-- The operation a mnemonic and its operand spell: PUT requires a byte, the others take none (30 R71). -/
def Mnemonic.instr : Mnemonic → Option Byte → Option Instr
  | .put, some b => some (.put b)
  | .put, none => none
  | .clear, none => some .clear
  | .capacity, none => some .capacity
  | .get, none => some .get
  | .peek, none => some .peek
  | .count, none => some .count
  | .clear, some _ => none
  | .capacity, some _ => none
  | .get, some _ => none
  | .peek, some _ => none
  | .count, some _ => none

/-- The request word of a line: the canonical word of a mnemonic legal on its port, or the raw word. A
mnemonic not legal on its port is refused (30 R71, R64). -/
def AsmLine.assemble (l : AsmLine) : Option Request :=
  match l.body with
  | .word w => some w
  | .op m byte _ =>
    match m.instr byte with
    | none => none
    | some i => if i.legalOn l.port then some (encode i) else none

/-- Whether a response is one the `expected` of a line admits. 30 R71 gives its grammar and not its meaning.
DESIGN CHOICE (log 19): `OK` with a number asks for exactly that data; `OK` without one admits any data; and
`EMPTY`, `FULL` and `ILLEGAL` look at the status alone. No step reads it. -/
def Expected.accepts (e : Expected) (r : Response) : Bool :=
  match e with
  | .ok none => decide (r.status = .ok)
  | .ok (some n) => decide (r = ⟨.ok, n⟩)
  | .empty => decide (r.status = .empty)
  | .full => decide (r.status = .full)
  | .illegal => decide (r.status = .illegal)

/-- The requests of a listing, each with its port, in the listing's order. -/
def assembleAll : List AsmLine → Option (List (Port × Request))
  | [] => some []
  | l :: ls =>
    match l.assemble, assembleAll ls with
    | some w, some rest => some ((l.port, w) :: rest)
    | _, _ => none

/-- One port's requests, in the listing's order. -/
def requestsOf (p : Port) (rs : List (Port × Request)) : List Request :=
  (rs.filter fun e => decide (e.1 = p)).map Prod.snd

/-- A listing loaded: each port's requests in order, the listing's order being the perform order
(95 section 3; log 8). -/
def loadListing (s : State) (ls : List AsmLine) : Option State :=
  (assembleAll ls).map fun rs =>
    s.loadPrograms (requestsOf .prod rs) (requestsOf .cons rs) (rs.map Prod.fst)

/-- A word of a line. -/
abbrev Token := List Char

/-- A finished word, if there is one, put in front. -/
def flushToken (cur : Token) (rest : List Token) : List Token :=
  if cur.isEmpty then rest else cur.reverse :: rest

/-- The words of a line: `:` and `->` stand for themselves, blanks separate (log 17). -/
def tokens : Token → List Char → List Token
  | cur, [] => flushToken cur []
  | cur, c :: cs =>
    if c = ' ' || c = '\t' then flushToken cur (tokens [] cs)
    else if c = ':' then flushToken cur ([':'] :: tokens [] cs)
    else if c = '-' then flushToken cur (tokens ['-'] cs)
    else if c = '>' then flushToken ('>' :: cur) (tokens [] cs)
    else tokens (c :: cur) cs

/-- The value of a decimal digit. -/
def decDigit (c : Char) : Option Nat :=
  if 48 ≤ c.toNat && c.toNat ≤ 57 then some (c.toNat - 48) else none

/-- The value of a hexadecimal digit, of either case (log 17). -/
def hexDigit (c : Char) : Option Nat :=
  if 48 ≤ c.toNat && c.toNat ≤ 57 then some (c.toNat - 48)
  else if 65 ≤ c.toNat && c.toNat ≤ 70 then some (c.toNat - 55)
  else if 97 ≤ c.toNat && c.toNat ≤ 102 then some (c.toNat - 87)
  else none

/-- The number the digits spell in `base`, after `acc`. -/
def digitsFrom (base : Nat) (digit : Char → Option Nat) : Nat → List Char → Option Nat
  | acc, [] => some acc
  | acc, c :: cs =>
    match digit c with
    | none => none
    | some d => digitsFrom base digit (acc * base + d) cs

/-- A decimal number, one digit at least. -/
def decNumber (t : Token) : Option Nat := if t.isEmpty then none else digitsFrom 10 decDigit 0 t

/-- The digits after `0x`. -/
def hexDigitsOf : Token → Option (List Char)
  | '0' :: 'x' :: c :: cs => some (c :: cs)
  | _ => none

/-- A hexadecimal number `0x…`. -/
def hexNumber (t : Token) : Option Nat := (hexDigitsOf t).bind (digitsFrom 16 hexDigit 0)

/-- A number, hexadecimal or decimal (log 17). -/
def number (t : Token) : Option Nat :=
  match hexNumber t with
  | some n => some n
  | none => decNumber t

/-- `byte`: decimal 0..255, or `0x` and two hexadecimal digits (30 R71). -/
def byteToken (t : Token) : Option Byte :=
  match hexDigitsOf t with
  | some ds => if ds.length = 2 then (digitsFrom 16 hexDigit 0 ds).map (BitVec.ofNat 8) else none
  | none =>
    match decNumber t with
    | some n => if n ≤ 255 then some (BitVec.ofNat 8 n) else none
    | none => none

/-- `hex11`: `0x000` to `0x7FF` (30 R71). -/
def hex11Token (t : Token) : Option Request :=
  match hexNumber t with
  | some n => if n < 2 ^ 11 then some (BitVec.ofNat 11 n) else none
  | none => none

/-- `port` (30 R71). -/
def portToken : Token → Option Port
  | ['P'] => some .prod
  | ['C'] => some .cons
  | _ => none

/-- `mnemonic` (30 R71). -/
def mnemonicToken (t : Token) : Option Mnemonic :=
  if t = ['C', 'L', 'E', 'A', 'R'] then some .clear
  else if t = ['C', 'A', 'P', 'A', 'C', 'I', 'T', 'Y'] then some .capacity
  else if t = ['P', 'U', 'T'] then some .put
  else if t = ['G', 'E', 'T'] then some .get
  else if t = ['P', 'E', 'E', 'K'] then some .peek
  else if t = ['C', 'O', 'U', 'N', 'T'] then some .count
  else none

/-- `expected`, all the words after `->` (30 R71). -/
def expectedTokens : List Token → Option Expected
  | [t] =>
    if t = ['O', 'K'] then some (.ok none)
    else if t = ['E', 'M', 'P', 'T', 'Y'] then some .empty
    else if t = ['F', 'U', 'L', 'L'] then some .full
    else if t = ['I', 'L', 'L', 'E', 'G', 'A', 'L'] then some .illegal
    else none
  | [t, n] => if t = ['O', 'K'] then (number n).map fun k => .ok (some k) else none
  | _ => none

/-- `[ "->" expected ]` (30 R71). -/
def arrowTokens : List Token → Option (Option Expected)
  | [] => some none
  | t :: ts => if t = ['-', '>'] then (expectedTokens ts).map some else none

/-- What follows a mnemonic: PUT's byte, and the expected response if one is written (30 R71). -/
def operandTokens (m : Mnemonic) (ts : List Token) : Option AsmBody :=
  match m, ts with
  | .put, [] => none
  | .put, t :: rest =>
    match byteToken t, arrowTokens rest with
    | some b, some e => some (.op .put (some b) e)
    | _, _ => none
  | .clear, rest => (arrowTokens rest).map (.op .clear none)
  | .capacity, rest => (arrowTokens rest).map (.op .capacity none)
  | .get, rest => (arrowTokens rest).map (.op .get none)
  | .peek, rest => (arrowTokens rest).map (.op .peek none)
  | .count, rest => (arrowTokens rest).map (.op .count none)

/-- What follows the port and its `:` (30 R71). -/
def bodyTokens : List Token → Option AsmBody
  | [] => none
  | t :: ts =>
    if t = ['.', 'w', 'o', 'r', 'd'] then
      match ts with
      | [w] => (hex11Token w).map .word
      | _ => none
    else (mnemonicToken t).bind fun m => operandTokens m ts

/-- A line from its characters (30 R71). -/
def parseLine (cs : List Char) : Option AsmLine :=
  match tokens [] cs with
  | p :: [':'] :: rest =>
    match portToken p, bodyTokens rest with
    | some port, some body => some ⟨port, body⟩
    | _, _ => none
  | _ => none

end Sys2Proof.Machine
end

