-- ==== Sys2Proof/Machine/Driver.lean ====
section
/-! DEFINITION. The driver's two instances (60 R169, R179): two copies of the block, each with its own
configuration and state (10 R38). Which instance performs next is an argument: nothing orders them
(20 R51; log 16). -/

namespace Sys2Proof.Machine

/-- Names of the driver's two instances (60 R169). -/
inductive FifoName where
  | receive
  | transmit
  deriving DecidableEq, Repr

/-- A system of the driver's two instances (10 R38). -/
structure Driver where
  rx : State
  tx : State
  deriving DecidableEq, Repr

/-- One of the two instances. -/
def Driver.fifo (d : Driver) : FifoName → State
  | .receive => d.rx
  | .transmit => d.tx

/-- One of the two instances replaced. -/
def Driver.setFifo (d : Driver) (n : FifoName) (s : State) : Driver :=
  match n with
  | .receive => { d with rx := s }
  | .transmit => { d with tx := s }

/-- One step of the named instance; the other is untouched (10 R38). -/
def Driver.stepFifo (d : Driver) (n : FifoName) : Host.Outcome Driver Fault Refusal :=
  match step (d.fifo n) with
  | .next s => .next (d.setFifo n s)
  | .fault f => .fault f
  | .refused r => .refused r

/-- Steps of the named instances, in order (20 R51: any order may be). -/
def Driver.stepsFifo : List FifoName → Driver → Host.Outcome Driver Fault Refusal
  | [], d => .next d
  | n :: ns, d =>
    match d.stepFifo n with
    | .next d' => Driver.stepsFifo ns d'
    | .fault f => .fault f
    | .refused r => .refused r

/-- The host duty that fixes the roles (60 R169, R179 items 1 and 2). The block never checks it. -/
def Driver.rolesHold (d : Driver) : Bool :=
  d.rx.cfg.role == Role.receive && d.tx.cfg.role == Role.transmit

end Sys2Proof.Machine
end

