-- ==== Sys2Proof/Machine/Observe.lean ====
section
/-! DEFINITION. What is observed of an instance: the live window and the queue contents (10 R30), the
end of a run and the observation at it (40 R90). -/

namespace Sys2Proof.Machine

/-- The live window: the slots that hold the unread bytes, oldest first (10 R30). -/
def State.liveWindow (s : State) : List Nat :=
  (List.range s.cnt).map fun k => (s.rd + k) % s.cfg.cap

/-- The queue contents `Q(S)`, oldest first (10 R30). -/
def State.queue (s : State) : List Byte := s.liveWindow.map s.memRead

/-- A port has finished when its index equals the length of its list (10 R35). -/
def PortState.finished (ps : PortState) : Bool := decide (ps.pi = ps.prog.length)

/-- The run has ended (40 R90). -/
def State.ended (s : State) : Bool := s.prod.finished && s.cons.finished

/-- The observation at the end of a run (40 R90). -/
structure Observation where
  rd : Nat
  wr : Nat
  cnt : Nat
  queue : List Byte
  history : List Event
  faultMark : Bool
  deriving DecidableEq, Repr

/-- The observation of a state (40 R90): nothing outside the live window is in it. -/
def State.observe (s : State) : Observation :=
  ⟨s.rd, s.wr, s.cnt, s.queue, s.history, s.faultMark⟩

end Sys2Proof.Machine
end

