-- ==== Sys2Proof/WellFormed.lean ====
section
/-! DEFINITION. What a client may issue. Every field of `Instr` is as wide as its type, so the checks
are those on the port that issues (30 R64) and on a port's request list (60 R163). -/

namespace Sys2Proof

/-- The operation may be issued on the port (30 R64). -/
def Instr.wellFormedOn (p : Port) (i : Instr) : Bool := i.legalOn p

/-- The operation may be issued on some port; true of every operation (30 R62). -/
def Instr.wellFormed (i : Instr) : Bool := i.wellFormedOn .prod || i.wellFormedOn .cons

/-- The word spells an operation legal on the port (60 R163). -/
def Request.wellFormedOn (p : Port) (w : Request) : Bool :=
  match decode p w with
  | .op _ => true
  | .illegal _ => false

/-- A port's request list holds legal requests only: such a client never sets the fault mark
(60 R163). -/
def requestsWellFormed (p : Port) (ws : List Request) : Bool := ws.all (Request.wellFormedOn p)

end Sys2Proof
end

