-- ==== Sys2Proof/Safety.lean ====
section
/-! DEFINITION. The terms claims are stated in: perform orders (20 R49), the invariants (10 R28 to R31),
what one answer leaves behind (40 R85), the events of a run, and the bounded list of bytes the block
refines (10 R30). -/

namespace Sys2Proof.Machine

/-- A stretch of the perform order: the requests of the named ports, performed in that order
(20 R49). Any list of ports may be asked for; it stops at a port with nothing pending. -/
def performOrder : List Port → State → Result
  | [], s => .next s
  | p :: ps, s =>
    match performPort p s with
    | .next t => performOrder ps t
    | .fault f => .fault f
    | .refused r => .refused r

/-- 10 R28: the ranges of the count and the indices. -/
structure State.Bounds (s : State) : Prop where
  cnt_le : s.cnt ≤ s.cfg.cap
  rd_lt : s.rd < s.cfg.cap
  wr_lt : s.wr < s.cfg.cap

/-- The invariant of a state between two steps. -/
structure State.Inv (s : State) : Prop where
  /-- 10 R28. -/
  bounds : s.Bounds
  /-- 10 R29. -/
  ring : s.wr = (s.rd + s.cnt) % s.cfg.cap
  /-- The storage keeps its canonical form. -/
  bufWf : s.buf.wf = true
  /-- Only slots that exist are written (10 R21). -/
  bufInRange : s.buf.inRange s.cfg.cap = true
  /-- 10 R31: every slot of the live window has been written since launch. -/
  liveWritten : ∀ i ∈ s.liveWindow, (s.buf.read? i).isSome = true
  /-- 10 R35: a sequence index stays within its list. -/
  piLe : ∀ p : Port, (s.port p).pi ≤ (s.port p).prog.length
  /-- 10 R36: between two steps no request is in flight. -/
  idle : ∀ p : Port, (s.port p).inFlight = none

/-- The requests of port `p` among the events, in perform order. -/
def requestsPerformed (p : Port) (es : List Event) : List Request :=
  (es.filter fun e => decide (e.port = p)).map Event.req

/-- The response last given to port `p` among the events. -/
def lastResponse (p : Port) (es : List Event) : Option Response :=
  ((es.filter fun e => decide (e.port = p)).map Event.resp).getLast?

/-- What the history of a run from launch says of its state. -/
structure State.HistoryInv (s : State) : Prop where
  /-- 20 R49 item 1: each port's operations appear in its issue order. -/
  issueOrder : ∀ p : Port, requestsPerformed p s.history = (s.port p).prog.take (s.port p).pi
  /-- 10 R39: the fault mark is set by any ILLEGAL response and never cleared. -/
  mark : s.faultMark = s.history.any fun e => decide (e.resp.status = .illegal)
  /-- 40 R85: each response was delivered to its port. -/
  delivered : ∀ p : Port, (s.port p).resp = lastResponse p s.history

/-- What the completion of a step leaves (40 R85), for request `w` of the port performed and response
`r`: the response is delivered, the index advanced by 1, the event appended; the other port and all that
is no part of the block are unchanged. -/
structure AnsweredWith (s t : State) (w : Request) (r : Response) : Prop where
  answered : t.port s.turn = ⟨(s.port s.turn).prog, (s.port s.turn).pi + 1, none, some r⟩
  otherPort : t.port s.turn.other = s.port s.turn.other
  recorded : t.history = s.history ++ [⟨s.turn, w, r⟩]
  cfg : t.cfg = s.cfg
  turn : t.turn = s.turn
  grants : t.grants = s.grants
  arbDraws : t.arbDraws = s.arbDraws
  launch : t.launch = s.launch

/-- The block's own state is unchanged (10 R20). -/
structure SameBlock (s t : State) : Prop where
  buf : t.buf = s.buf
  rd : t.rd = s.rd
  wr : t.wr = s.wr
  cnt : t.cnt = s.cnt

/-- The events of a stretch that led from `s` to `t`. -/
def eventsSince (s t : State) : List Event := t.history.drop s.history.length

/-- What an event's request decodes to. -/
def Event.decoded (e : Event) : Decoded := decode e.port e.req

/-- The byte a successful PUT accepted. -/
def Event.accepted (e : Event) : Option Byte :=
  match e.decoded, e.resp.status with
  | .op (.put b), .ok => some b
  | _, _ => none

/-- The byte a successful GET returned. -/
def Event.received (e : Event) : Option Byte :=
  match e.decoded, e.resp.status with
  | .op .get, .ok => some (BitVec.ofNat 8 e.resp.data)
  | _, _ => none

/-- The bytes accepted by successful PUTs, in perform order. -/
def acceptedBytes (es : List Event) : List Byte := es.filterMap Event.accepted

/-- The bytes returned by successful GETs, in perform order. -/
def receivedBytes (es : List Event) : List Byte := es.filterMap Event.received

/-- Whether an event is a CLEAR. -/
def Event.isClear (e : Event) : Bool := decide (e.decoded = .op .clear)

/-- Whether an event is a PUT, successful or not. -/
def Event.isPut (e : Event) : Bool :=
  match e.decoded with
  | .op (.put _) => true
  | _ => false

/-- Whether an event is a GET or a PEEK, successful or not. -/
def Event.isRead (e : Event) : Bool :=
  match e.decoded with
  | .op .get => true
  | .op .peek => true
  | _ => false

/-- The events after the last CLEAR; all of them if there is none. -/
def sinceLastClear : List Event → List Event
  | [] => []
  | e :: es => if (e :: es).any Event.isClear then sinceLastClear es else e :: es

/-- A PUT on a queue: refused when it holds `cap` bytes (10 R30). -/
def queuePut (cap : Nat) (q : List Byte) (b : Byte) : Response × List Byte :=
  if q.length = cap then (⟨.full, 0⟩, q) else (⟨.ok, 0⟩, q ++ [b])

/-- A GET on a queue (10 R30). -/
def queueGet : List Byte → Response × List Byte
  | [] => (⟨.empty, 0⟩, [])
  | b :: q => (⟨.ok, b.toNat⟩, q)

/-- A PEEK on a queue (10 R30). -/
def queuePeek : List Byte → Response × List Byte
  | [] => (⟨.empty, 0⟩, [])
  | b :: q => (⟨.ok, b.toNat⟩, b :: q)

/-- One request on the bounded list of bytes the block refines (10 R30): the response and the list after. -/
def queuePerform (cap : Nat) (q : List Byte) (p : Port) (w : Request) : Response × List Byte :=
  match decode p w with
  | .illegal _ => (⟨.illegal, 0⟩, q)
  | .op .clear => (⟨.ok, 0⟩, [])
  | .op .capacity => (⟨.ok, cap⟩, q)
  | .op (.put b) => queuePut cap q b
  | .op .get => queueGet q
  | .op .peek => queuePeek q
  | .op .count => (⟨.ok, q.length⟩, q)

/-- A sequence of requests on the bounded list of bytes: the events, and the list after. -/
def queueRun (cap : Nat) : List Byte → List (Port × Request) → List Event × List Byte
  | q, [] => ([], q)
  | q, (p, w) :: rs =>
    (⟨p, w, (queuePerform cap q p w).1⟩ :: (queueRun cap (queuePerform cap q p w).2 rs).1,
      (queueRun cap (queuePerform cap q p w).2 rs).2)

/-- How many requests are still to be performed. -/
def State.remaining (s : State) : Nat :=
  (s.prod.prog.length - s.prod.pi) + (s.cons.prog.length - s.cons.pi)

/-- A client's request list loaded into a freshly launched instance of configuration `c` and draw `n`. -/
def launched (c : Config) (n : Nat) (prodProg consProg : List Request) : State :=
  (State.resetWith c n).loadPrograms prodProg consProg []

/-- The same, but the storage holds what it held in state `t`, as CLEAR leaves it (70 R191). -/
def launchedOver (t : State) (prodProg consProg : List Request) : State :=
  { launched t.cfg t.launch prodProg consProg with buf := t.buf }

/-- The state with another sequence of arbiter choices given. -/
def State.withGrants (s : State) (g : List Port) : State := { s with grants := g }

/-- The state with other arbiter bookkeeping: the choices given and the free draws taken. -/
def State.withArbiter (s : State) (g : List Port) (n : Nat) : State := { s with grants := g, arbDraws := n }

/-- The request port `p` has pending decodes to operation `i`. -/
def State.pendingOp (s : State) (p : Port) (i : Instr) : Prop :=
  ∃ w, (s.port p).pending = some w ∧ decode p w = .op i

/-- Two states that differ at most in the bytes outside the live window: all but the storage is the same,
and so are the queue contents. -/
structure SameButStale (s t : State) : Prop where
  queue : t.queue = s.queue
  cfg : t.cfg = s.cfg
  rd : t.rd = s.rd
  wr : t.wr = s.wr
  cnt : t.cnt = s.cnt
  prod : t.prod = s.prod
  cons : t.cons = s.cons
  history : t.history = s.history
  faultMark : t.faultMark = s.faultMark

/-- The state with other values of the parameters no rule depends on (00 R7, 60 R169, 70 R201). -/
def State.withParameters (s : State) (role : Role) (clocking : Clocking) (lat : Nat) : State :=
  { s with cfg := ⟨s.cfg.cap, s.cfg.cap_pos, role, clocking, lat⟩ }

/-- A change of the state, applied to the next state an outcome answers. -/
def Result.mapNext (f : State → State) : Result → Result
  | .next s => .next (f s)
  | .fault r => .fault r
  | .refused r => .refused r

/-- `n` steps of the machine. -/
def State.runSteps (s : State) (n : Nat) : Result := Host.Core.run core n s

/-- A state no claim excludes: no illegal request has been performed (60 R163). -/
def State.clean (s : State) : Bool := !s.faultMark

/-- Both clients' lists hold legal requests only (60 R163). -/
def State.wellFormedClients (s : State) : Bool :=
  requestsWellFormed .prod s.prod.prog && requestsWellFormed .cons s.cons.prog

end Sys2Proof.Machine
end

