-- ==== Sys2Proof/Certificates/Slice0/Obligations.lean ====
section
/-! DEFINITION. The statements for the provers. Each docstring names the rules of spec/ it rests on. -/

open Sys2Proof Sys2Proof.Machine

/-! ## Encoding -/

/-- 30 R62, R64, R70: the canonical word of an operation decodes to it, operand included, on every port
where it is legal and to WrongPort on the other; and a word that decodes to an operation has its code,
PUT's word being the canonical one. -/
def Obligations.EncodeThenDecodeGivesTheOperation : Prop :=
  (∀ (i : Instr) (p : Port), decode p (encode i) = if i.legalOn p then .op i else .illegal .wrongPort) ∧
  (∀ (p : Port) (w : Request) (i : Instr), decode p w = .op i →
    opField (encode i) = opField w ∧ ∀ b : Byte, i = .put b → encode i = w)

/-- 30 R62, opcode_table.json: a word is held by at most one row of the table, and a row holds it exactly
when the decoder reads the row's operation from it. -/
def Obligations.DecoderReadsTheOpcodeTable : Prop :=
  ∀ w : Request,
    (∀ r ∈ opcodeRows, ∀ r' ∈ opcodeRows, r.holds w = true → r'.holds w = true → r = r') ∧
    (∀ r ∈ opcodeRows, r.holds w = true ↔ ∃ i, decodeOp w = some i ∧ i.mnemonic = r.mnemonic)

/-- 30 R62, R70, on words written out bit by bit (95 section 2.1). -/
def Obligations.WrittenOutWordsDecode : Prop :=
  decode .prod 0b00100000000#11 = .op .clear ∧
  decode .cons 0b00111111111#11 = .op .clear ∧
  decode .prod 0b01010101011#11 = .op .capacity ∧
  decode .prod 0b01111111110#11 = .op (.put 0b11111110#8) ∧
  decode .cons 0b01111111110#11 = .illegal .wrongPort ∧
  decode .cons 0b10000000000#11 = .op .get ∧
  decode .prod 0b10000000000#11 = .illegal .wrongPort ∧
  decode .cons 0b10111000011#11 = .op .peek ∧
  decode .cons 0b11011111111#11 = .op .count ∧
  decode .cons 0b11111111111#11 = .illegal .reservedOpcode

/-- 30 R65, R66: the status stands at bits RW+1..RW and the data at bits RW-1..0 of the packed word, which
read with its instance's RW gives the response back. -/
def Obligations.ResponseWordHoldsStatusAndData : Prop :=
  ∀ (c : Config) (r : Response), r.data < 2 ^ c.rw →
    respStatusField c (r.pack c) = r.status.code ∧ (respDataField c (r.pack c)).toNat = r.data ∧
      Response.unpack c (r.pack c) = r

/-- 30 R68: the widened view of a GET or PEEK response, and PUT's boolean-like signal. -/
def Obligations.WidenedViewSeparatesNoDataFromEveryByte : Prop :=
  ∀ b : Byte,
    Response.widened ⟨.ok, b.toNat⟩ = some (b.toNat : Int) ∧
    Response.widened ⟨.empty, 0⟩ = some (-1) ∧
    Response.widened16 ⟨.empty, 0⟩ = some 0xFFFF#16 ∧
    Response.widened ⟨.ok, b.toNat⟩ ≠ Response.widened ⟨.empty, 0⟩ ∧
    Response.putSignal ⟨.ok, 0⟩ = some true ∧ Response.putSignal ⟨.full, 0⟩ = some false

/-- 00 R7, 10 R23 to R25: the registers fit the widths that follow from CAP, and every value a response
carries fits its data field. -/
def Obligations.RegistersAndDataFitTheirWidths : Prop :=
  ∀ s : State, s.Bounds →
    s.rd < 2 ^ s.cfg.iw ∧ s.wr < 2 ^ s.cfg.iw ∧ s.cnt < 2 ^ s.cfg.cw ∧
    zextRw s.cfg s.cnt = s.cnt ∧ zextRw s.cfg s.cfg.cap = s.cfg.cap ∧
    ∀ i, zextRw s.cfg (s.memRead i).toNat = (s.memRead i).toNat

/-! ## The operations -/

/-- 41 R100: CLEAR's effect, from every state in which a port's request is being performed. -/
def Obligations.ClearEmptiesTheBuffer : Prop :=
  ∀ (s : State) (w : Request), (s.port s.turn).inFlight = some w →
    ∃ t, exec .clear s = .next t ∧ AnsweredWith s t w ⟨.ok, 0⟩ ∧
      t.cnt = 0 ∧ t.rd = 0 ∧ t.wr = 0 ∧ t.buf = s.buf ∧ t.faultMark = s.faultMark ∧
      t.emptyO = true ∧ t.fullO = false

/-- 41 R101: CAPACITY's result. -/
def Obligations.CapacityAnswersCap : Prop :=
  ∀ (s : State) (w : Request), (s.port s.turn).inFlight = some w →
    ∃ t, exec .capacity s = .next t ∧ AnsweredWith s t w ⟨.ok, s.cfg.cap⟩ ∧ SameBlock s t ∧
      t.faultMark = s.faultMark

/-- 42 R110: PUT on a buffer that is not full. -/
def Obligations.PutStoresAtTheWriteIndex : Prop :=
  ∀ (s : State) (w : Request) (b : Byte), (s.port s.turn).inFlight = some w → s.turn = .prod →
    s.cnt ≠ s.cfg.cap → s.putSlot < s.cfg.cap →
    ∃ t, exec (.put b) s = .next t ∧ AnsweredWith s t w ⟨.ok, 0⟩ ∧
      t.memRead s.putSlot = b ∧ (∀ a, a ≠ s.putSlot → t.memRead a = s.memRead a) ∧
      t.wr = (s.wr + 1) % s.cfg.cap ∧ t.cnt = s.cnt + 1 ∧ t.rd = s.rd ∧ t.faultMark = s.faultMark ∧
      t.emptyO = false ∧ (t.fullO = true ↔ s.cnt + 1 = s.cfg.cap)

/-- 60 R162, 42 R110: PUT on a full buffer. -/
def Obligations.PutOnAFullBufferAnswersFull : Prop :=
  ∀ (s : State) (w : Request) (b : Byte), (s.port s.turn).inFlight = some w → s.turn = .prod →
    s.cnt = s.cfg.cap →
    ∃ t, exec (.put b) s = .next t ∧ AnsweredWith s t w ⟨.full, 0⟩ ∧ SameBlock s t ∧
      t.faultMark = s.faultMark

/-- 42 R111: GET on a buffer that is not empty. -/
def Obligations.GetTakesTheByteAtTheReadIndex : Prop :=
  ∀ (s : State) (w : Request), (s.port s.turn).inFlight = some w → s.turn = .cons →
    s.cnt ≠ 0 → s.headSlot < s.cfg.cap →
    ∃ t, exec .get s = .next t ∧ AnsweredWith s t w ⟨.ok, (s.memRead s.headSlot).toNat⟩ ∧
      t.rd = (s.rd + 1) % s.cfg.cap ∧ t.cnt = s.cnt - 1 ∧ t.wr = s.wr ∧ t.buf = s.buf ∧
      t.faultMark = s.faultMark ∧ (t.emptyO = true ↔ s.cnt = 1) ∧ (s.cnt ≤ s.cfg.cap → t.fullO = false)

/-- 42 R112: PEEK on a buffer that is not empty. -/
def Obligations.PeekShowsTheByteAtTheReadIndex : Prop :=
  ∀ (s : State) (w : Request), (s.port s.turn).inFlight = some w → s.turn = .cons →
    s.cnt ≠ 0 → s.headSlot < s.cfg.cap →
    ∃ t, exec .peek s = .next t ∧ AnsweredWith s t w ⟨.ok, (s.memRead s.headSlot).toNat⟩ ∧
      SameBlock s t ∧ t.faultMark = s.faultMark

/-- 60 R161, 42 R111, R112: GET and PEEK on an empty buffer. -/
def Obligations.GetAndPeekOnAnEmptyBufferAnswerEmpty : Prop :=
  ∀ (i : Instr) (s : State) (w : Request), i = .get ∨ i = .peek → (s.port s.turn).inFlight = some w →
    s.turn = .cons → s.cnt = 0 →
    ∃ t, exec i s = .next t ∧ AnsweredWith s t w ⟨.empty, 0⟩ ∧ SameBlock s t ∧ t.faultMark = s.faultMark

/-- 43 R140: COUNT's result, and its range. -/
def Obligations.CountAnswersTheCount : Prop :=
  ∀ (s : State) (w : Request), (s.port s.turn).inFlight = some w → s.cnt ≤ s.cfg.cap →
    ∃ t, exec .count s = .next t ∧ AnsweredWith s t w ⟨.ok, s.cnt⟩ ∧ SameBlock s t ∧
      t.faultMark = s.faultMark

/-- 30 R64, 42 R110 to R112, 60 R163: PUT performed for CONS, GET or PEEK performed for PROD. -/
def Obligations.OperationsOnTheWrongPortAreRejected : Prop :=
  ∀ (i : Instr) (s : State) (w : Request), (s.port s.turn).inFlight = some w →
    ((∃ b, i = .put b) ∧ s.turn = .cons) ∨ ((i = .get ∨ i = .peek) ∧ s.turn = .prod) →
    ∃ t, exec i s = .next t ∧ AnsweredWith s t w ⟨.illegal, 0⟩ ∧ SameBlock s t ∧ t.faultMark = true

/-- 10 R27, 42 R110: PUT's frame. The one slot it may store to is `s.putSlot`, and none when it is rejected
or the buffer is full; the read index is never written. -/
def Obligations.FrameOfPut : Prop :=
  ∀ (b : Byte) (s t : State), exec (.put b) s = .next t →
    (∀ a, s.putSlot = a → ∀ a', a' ≠ a → t.memRead a' = s.memRead a') ∧
    (s.turn = .cons ∨ s.isFull = true → SameBlock s t) ∧
    t.rd = s.rd ∧ (s.turn = .prod → t.faultMark = s.faultMark) ∧ ∃ w r, AnsweredWith s t w r

/-- 10 R27: the frame of the operations that store nothing. The write index is written by CLEAR alone, the
read index and the count by CLEAR and GET alone. -/
def Obligations.FrameOfOperationsThatStoreNothing : Prop :=
  ∀ (i : Instr) (s t : State), i ∈ [Instr.clear, .capacity, .get, .peek, .count] → exec i s = .next t →
    (∀ a, t.memRead a = s.memRead a) ∧
    (i ≠ .clear → t.wr = s.wr) ∧
    (i ≠ .clear → i ≠ .get → t.rd = s.rd ∧ t.cnt = s.cnt) ∧
    (i.legalOn s.turn = true → t.faultMark = s.faultMark) ∧ ∃ w r, AnsweredWith s t w r

/-- 40 R91: the index advance. -/
def Obligations.IndexAdvanceWrapsAtCap : Prop :=
  ∀ (s : State) (i : Nat), i < s.cfg.cap →
    s.inc i = (i + 1) % s.cfg.cap ∧ s.inc i < s.cfg.cap ∧ (s.cfg.cap = 1 → s.inc 0 = 0)

/-! ## Rejection and priority -/

/-- 60 R163: what raises IllegalRequest, its effect, and that the mark it sets is never cleared. -/
def Obligations.IllegalRequestSetsOnlyTheFaultMark : Prop :=
  (∀ (p : Port) (w : Request), (∃ reason, decode p w = .illegal reason) ↔
    opField w = 0b000#3 ∨ opField w = 0b111#3 ∨ (opField w = 0b011#3 ∧ p = .cons) ∨
      ((opField w = 0b100#3 ∨ opField w = 0b101#3) ∧ p = .prod)) ∧
  (∀ (p : Port) (s : State) (w : Request) (reason : IllegalReason), (s.port p).pending = some w →
    decode p w = .illegal reason →
    ∃ t, performPort p s = .next t ∧ AnsweredWith (s.accept p w) t w ⟨.illegal, 0⟩ ∧ SameBlock s t ∧
      t.faultMark = true) ∧
  (∀ (p : Port) (s t : State), performPort p s = .next t → s.faultMark = true → t.faultMark = true)

/-- 40 R86: the opcode is looked at first, then the port, and only a legal request tests FULL or EMPTY. -/
def Obligations.LegalityComesBeforeFullAndEmpty : Prop :=
  (∀ (p : Port) (w : Request), opField w = 0b000#3 ∨ opField w = 0b111#3 →
    decode p w = .illegal .reservedOpcode) ∧
  (∀ (p : Port) (w : Request) (i : Instr), decodeOp w = some i → i.legalOn p = false →
    decode p w = .illegal .wrongPort) ∧
  (∀ (p : Port) (s t : State), performPort p s = .next t →
    ∃ w r, (s.port p).pending = some w ∧ (t.port p).resp = some r ∧
      (r.status = .illegal ↔ ∃ reason, decode p w = .illegal reason) ∧
      (r.status = .full ↔ (∃ b, decode p w = .op (.put b)) ∧ s.cnt = s.cfg.cap) ∧
      (r.status = .empty ↔ (decode p w = .op .get ∨ decode p w = .op .peek) ∧ s.cnt = 0))

/-- 30 R67: the data field of every response. -/
def Obligations.ResponseDataFollowsTheOutcome : Prop :=
  ∀ (p : Port) (s t : State), s.Bounds → performPort p s = .next t →
    ∃ w r, (s.port p).pending = some w ∧ (t.port p).resp = some r ∧ r.data < 2 ^ s.cfg.rw ∧
      (r.status ≠ .ok → r.data = 0) ∧
      (decode p w = .op .clear → r.data = 0) ∧ (∀ b, decode p w = .op (.put b) → r.data = 0) ∧
      (decode p w = .op .capacity → r.data = s.cfg.cap) ∧ (decode p w = .op .count → r.data = s.cnt) ∧
      (decode p w = .op .get ∨ decode p w = .op .peek → r.status = .ok → r.data = (s.memRead s.rd).toNat)

/-- 10 R33: EMPTY and FULL are never true together, and with CAP = 1 exactly one holds. -/
def Obligations.EmptyAndFullExcludeEachOther : Prop :=
  ∀ s : State, s.cnt ≤ s.cfg.cap →
    (s.emptyO && s.fullO) = false ∧ (s.cfg.cap = 1 → (s.emptyO != s.fullO) = true)

/-- 43 R141: the outputs are COUNT's result compared with 0 and CAP, and they change only at the perform
of a PUT, GET or CLEAR. -/
def Obligations.OutputsAreSnapshotsOfTheCount : Prop :=
  (∀ (s t : State), s.cnt ≤ s.cfg.cap → exec .count s = .next t →
    ∃ n, (t.port s.turn).resp = some ⟨.ok, n⟩ ∧ (s.emptyO = true ↔ n = 0) ∧ (s.fullO = true ↔ n = s.cfg.cap)) ∧
  (∀ (p : Port) (s t : State), performPort p s = .next t → t.emptyO ≠ s.emptyO ∨ t.fullO ≠ s.fullO →
    s.pendingOp p .clear ∨ s.pendingOp p .get ∨ ∃ b, s.pendingOp p (.put b))

/-! ## Reset, steps and the arbiter -/

/-- 10 R37, 70 R190: the state after reset, for every configuration and every draw of the storage. -/
def Obligations.ResetLeavesTheSpecValues : Prop :=
  ∀ (c : Config) (n : Nat),
    (State.resetWith c n).cfg = c ∧ (State.resetWith c n).cnt = 0 ∧ (State.resetWith c n).rd = 0 ∧
    (State.resetWith c n).wr = 0 ∧ (State.resetWith c n).emptyO = true ∧ (State.resetWith c n).fullO = false ∧
    (∀ i, (State.resetWith c n).memRead i = Config.resetByte n i) ∧
    (∀ p : Port, ((State.resetWith c n).port p).inFlight = none ∧ ((State.resetWith c n).port p).pi = 0) ∧
    (State.resetWith c n).history = [] ∧ (State.resetWith c n).faultMark = false

/-- U6, 70 R192 (U3): CAP = 0 is refused, every other capacity launches, and reset after a perform is
refused. -/
def Obligations.LaunchAndResetRefusals : Prop :=
  (∀ (role : Role) (clocking : Clocking) (lat draw : Nat),
    Machine.launch 0 role clocking lat draw = .refused .zeroCapacity) ∧
  (∀ (cap : Nat) (role : Role) (clocking : Clocking) (lat draw : Nat), 1 ≤ cap →
    ∃ s, Machine.launch cap role clocking lat draw = .next s ∧ s.cfg.cap = cap ∧ s.Inv) ∧
  (∀ s : State, s.history ≠ [] → assertReset s = .refused .resetDuringRun)

/-- 40 R84: a step is the decoded operation's own meaning, run on the state that granted and accepted the
request; a request that decodes to none is rejected. -/
def Obligations.StepRunsTheDecodedRequest : Prop :=
  ∀ (s : State) (p : Port) (w : Request), s.nextPort = some p → (s.port p).pending = some w →
    (∀ i, decode p w = .op i → step s = exec i (s.granted.accept p w)) ∧
    (∀ reason, decode p w = .illegal reason → step s = raiseIllegal (s.granted.accept p w))

/-- 40 R80, R90, and the model's choice of log 5: with nothing pending a step leaves the state. -/
def Obligations.StepWithNothingPendingChangesNothing : Prop :=
  ∀ s : State, (∀ p : Port, s.isPending p = false) → step s = .next s

/-- 40 R82: with both ports pending either may be performed first, and where no choice is given the port
is a free draw, the same whatever the rest of the state. -/
def Obligations.EitherPendingPortMayGoFirst : Prop :=
  (∀ (s : State) (p : Port) (gs : List Port), s.isPending .prod = true → s.isPending .cons = true →
    step (s.withGrants (p :: gs)) = performPort p (s.withGrants gs)) ∧
  (∀ s : State, s.isPending .prod = true → s.isPending .cons = true → s.grants = [] →
    step s = performPort (Config.arbiter s.launch s.arbDraws) { s with arbDraws := s.arbDraws + 1 })

/-- 40 R87: a pending request is always performable, whatever the buffer holds. -/
def Obligations.EveryPendingRequestIsPerformable : Prop :=
  ∀ (p : Port) (s : State), s.Bounds → s.isPending p = true → ∃ t, performPort p s = .next t

/-- 40 R85: a performed request is answered, recorded and counted, and nothing else of the ports, the
parameters or the history changes. -/
def Obligations.PerformCompletesOneRequest : Prop :=
  ∀ (p : Port) (s t : State), performPort p s = .next t →
    ∃ w r, (s.port p).pending = some w ∧ AnsweredWith (s.accept p w) t w r

/-! ## Invariants -/

/-- 10 R28: the ranges hold after launch and every performed request keeps them. -/
def Obligations.BoundsHoldAtAllTimes : Prop :=
  (∀ (c : Config) (n : Nat), (State.resetWith c n).Bounds) ∧
  (∀ (p : Port) (s t : State), s.Bounds → performPort p s = .next t → t.Bounds)

/-- 10 R29: the ring relation, and when the two indices are equal. -/
def Obligations.WriteIndexFollowsReadIndexAndCount : Prop :=
  (∀ (c : Config) (n : Nat),
    (State.resetWith c n).wr = ((State.resetWith c n).rd + (State.resetWith c n).cnt) % c.cap) ∧
  (∀ (p : Port) (s t : State), s.Bounds → s.wr = (s.rd + s.cnt) % s.cfg.cap → performPort p s = .next t →
    t.wr = (t.rd + t.cnt) % t.cfg.cap) ∧
  (∀ s : State, s.Bounds → s.wr = (s.rd + s.cnt) % s.cfg.cap →
    (s.rd = s.wr ↔ s.cnt = 0 ∨ s.cnt = s.cfg.cap))

/-- The invariant holds of every freshly launched instance, whatever its clients. -/
def Obligations.InvariantHoldsAtLaunch : Prop :=
  State.reset.Inv ∧ ∀ (c : Config) (n : Nat) (pp cp : List Request), (launched c n pp cp).Inv

/-- 10 R28, R29, R31, R35, R36: every step keeps the invariant. -/
def Obligations.EveryStepKeepsTheInvariant : Prop :=
  ∀ s t : State, s.Inv → step s = .next t → t.Inv

/-- 40 R87, 60 R160: from a state that meets the invariant a step always answers a next state; with nothing
pending that is the model's idle step (log 5). -/
def Obligations.StepNeverStops : Prop :=
  ∀ s : State, s.Inv → ∃ t, step s = .next t

/-- 10 R39, 20 R49 item 1, 40 R85: the history of every run from launch is in issue order, accounts for the
fault mark, and holds the responses delivered. Its launch clause rests on two reset values of log 7: the
ports hold no response (the model's choice) and the history is empty (the model's reading). -/
def Obligations.HistoryAccountsForTheRun : Prop :=
  (∀ (c : Config) (n : Nat) (pp cp : List Request), (launched c n pp cp).HistoryInv) ∧
  (∀ s t : State, s.Inv → s.HistoryInv → step s = .next t → t.HistoryInv)

/-- 60 R163: clients whose lists hold legal requests only never set the fault mark. -/
def Obligations.LegalClientsNeverSetTheFaultMark : Prop :=
  ∀ (n : Nat) (s t : State), s.wellFormedClients = true → s.clean = true → s.runSteps n = .next t →
    t.clean = true ∧ t.wellFormedClients = true

/-! ## The queue the block refines -/

/-- 10 R30: each performed request does to the queue contents what it does to a bounded list of bytes, and
answers the same. -/
def Obligations.BlockRefinesABoundedQueue : Prop :=
  ∀ (p : Port) (s t : State), s.Inv → performPort p s = .next t →
    ∃ w, (s.port p).pending = some w ∧ t.queue = (queuePerform s.cfg.cap s.queue p w).2 ∧
      (t.port p).resp = some (queuePerform s.cfg.cap s.queue p w).1

/-- 20 R49: every perform order is a sequence of requests, each port's in its issue order, whose responses
and final contents are those of the bounded list of bytes performing them one after another. -/
def Obligations.PerformOrdersAreLinearizable : Prop :=
  ∀ (order : List Port) (s t : State), s.Inv → performOrder order s = .next t →
    ∃ rs : List (Port × Request), rs.map Prod.fst = order ∧
      (∀ p : Port, requestsPerformed p (queueRun s.cfg.cap s.queue rs).1 <+:
        (s.port p).prog.drop (s.port p).pi) ∧
      t.history = s.history ++ (queueRun s.cfg.cap s.queue rs).1 ∧
      t.queue = (queueRun s.cfg.cap s.queue rs).2

/-- 20 R50: over a stretch with no CLEAR, the bytes queued at its start and then those accepted are the
bytes returned and then those still queued. -/
def Obligations.FifoContract : Prop :=
  ∀ (order : List Port) (s t : State), s.Inv → performOrder order s = .next t →
    (∀ e ∈ eventsSince s t, e.isClear = false) →
    s.queue ++ acceptedBytes (eventsSince s t) = receivedBytes (eventsSince s t) ++ t.queue

/-- 95 W5: over a stretch with no CLEAR the count grows by the successful PUTs less the successful GETs. -/
def Obligations.CountIsPutsLessGets : Prop :=
  ∀ (order : List Port) (s t : State), s.Inv → performOrder order s = .next t →
    (∀ e ∈ eventsSince s t, e.isClear = false) →
    t.cnt + (receivedBytes (eventsSince s t)).length = s.cnt + (acceptedBytes (eventsSince s t)).length

/-- 10 R31: in every run from launch the unread bytes are bytes PUT since the last CLEAR, in order, and
every slot of the live window has been written. That the history starts empty is the model's reading
(log 7). -/
def Obligations.UnreadBytesWerePutSinceTheLastClear : Prop :=
  ∀ (c : Config) (n : Nat) (pp cp : List Request) (order : List Port) (t : State),
    performOrder order (launched c n pp cp) = .next t →
    acceptedBytes (sinceLastClear t.history) = receivedBytes (sinceLastClear t.history) ++ t.queue ∧
    ∀ i ∈ t.liveWindow, (t.buf.read? i).isSome = true

/-- 40 R89: the perform order fixed, the bytes outside the live window, the reset contents among them,
influence no response and none of the read index, the write index and the count. -/
def Obligations.StaleBytesInfluenceNothing : Prop :=
  ∀ (order : List Port) (s s' t : State), s.Inv → s'.Inv → SameButStale s s' → performOrder order s = .next t →
    ∃ t', performOrder order s' = .next t' ∧ SameButStale t t'

/-- 70 R191: reset and CLEAR agree. CLEAR leaves the two indices and the count as reset does and every slot its byte,
and clients launched over what it leaves get the responses they get from reset. -/
def Obligations.ResetAndClearGiveTheSameResponses : Prop :=
  ∀ (p : Port) (s t : State), s.Inv → s.pendingOp p .clear → performPort p s = .next t →
    (t.rd = 0 ∧ t.wr = 0 ∧ t.cnt = 0 ∧ t.buf = s.buf) ∧
    ∀ (n : Nat) (pp cp : List Request) (order : List Port) (u : State),
      performOrder order (launchedOver t pp cp) = .next u →
      ∃ v, performOrder order (launched t.cfg n pp cp) = .next v ∧ v.history = u.history ∧
        v.prod = u.prod ∧ v.cons = u.cons ∧ v.queue = u.queue

/-! ## Runs -/

/-- 40 R82: every perform order is a run of the machine, for the arbiter's choices that name it;
the input that names them is the model's form of the choice (log 4). -/
def Obligations.EveryPerformOrderIsARun : Prop :=
  ∀ (order : List Port) (s t : State), performOrder order s = .next t →
    (s.withGrants order).runSteps order.length = .next (t.withGrants [])

/-- 40 R82, R84: every run of the machine performs its requests in some perform order, and differs from it
in the arbiter's bookkeeping alone. The idle steps among them (log 5) and that bookkeeping (log 4) are the
model's. -/
def Obligations.EveryRunFollowsAPerformOrder : Prop :=
  ∀ (n : Nat) (s t : State), s.runSteps n = .next t →
    ∃ (order : List Port) (u : State), order.length ≤ n ∧ performOrder order s = .next u ∧
      t = u.withArbiter t.grants t.arbDraws

/-- 40 R88, R90: a run ends after exactly as many steps as there are requests still to perform; clients
are finite lists and the arbiter never idles while a request is pending (log 12). -/
def Obligations.EveryRunEnds : Prop :=
  ∀ s : State, s.Inv →
    ∃ t, s.runSteps s.remaining = .next t ∧ t.ended = true ∧
      t.history.length = s.history.length + s.remaining

/-- 40 R88: a pending request is performed after at most as many other steps as the other port has requests
left, whatever the arbiter chooses. The bound is the model's form of fairness (log 12). -/
def Obligations.NoPendingRequestIsStarved : Prop :=
  ∀ (p : Port) (s : State), s.Inv → s.isPending p = true →
    ∃ (k : Nat) (t : State),
      k ≤ ((s.port p.other).prog.length - (s.port p.other).pi) + 1 ∧ s.runSteps k = .next t ∧
        (t.port p).pi = (s.port p).pi + 1

/-! ## Hazards and guarantees between requests -/

/-- 42 R113: PEEK, and then GET with no CLEAR between and GET the consumer's next operation, answer the
same byte. -/
def Obligations.PeekThenGetAgree : Prop :=
  ∀ (order : List Port) (s s1 t u : State) (v : Nat), s.Inv → s.pendingOp .cons .peek →
    performPort .cons s = .next s1 → s1.cons.resp = some ⟨.ok, v⟩ →
    (∀ p ∈ order, p = .prod) → performOrder order s1 = .next t → (∀ e ∈ eventsSince s1 t, e.isClear = false) →
    t.pendingOp .cons .get → performPort .cons t = .next u → u.cons.resp = some ⟨.ok, v⟩

/-- 70 R195: the producer's guarantee, and that free space only grows while the consumer acts. -/
def Obligations.ProducerSideGuarantee : Prop :=
  (∀ (order : List Port) (s s1 t u : State) (c : Nat) (b : Byte), s.Inv → s.pendingOp .prod .count →
    performPort .prod s = .next s1 → s1.prod.resp = some ⟨.ok, c⟩ → c < s.cfg.cap →
    performOrder order s1 = .next t → (∀ e ∈ eventsSince s1 t, e.isPut = false) →
    t.pendingOp .prod (.put b) → performPort .prod t = .next u → u.prod.resp = some ⟨.ok, 0⟩) ∧
  (∀ (order : List Port) (s t : State), (∀ p ∈ order, p = .cons) → performOrder order s = .next t →
    s.cfg.cap - s.cnt ≤ t.cfg.cap - t.cnt)

/-- 70 R196: the consumer's guarantee, which a CLEAR voids. -/
def Obligations.ConsumerSideGuarantee : Prop :=
  ∀ (order : List Port) (i : Instr) (s s1 t u : State) (c : Nat), s.Inv → s.pendingOp .cons .count →
    performPort .cons s = .next s1 → s1.cons.resp = some ⟨.ok, c⟩ → 0 < c →
    performOrder order s1 = .next t → (∀ e ∈ eventsSince s1 t, e.isRead = false ∧ e.isClear = false) →
    i = .get ∨ i = .peek → t.pendingOp .cons i → performPort .cons t = .next u →
    ∃ v, u.cons.resp = some ⟨.ok, v⟩

/-- 70 R197: a GET after one or more CLEARs, with only the producer acting before it, answers the first byte
PUT after the last of them, or EMPTY. -/
def Obligations.GetAfterClearsAnswersTheFirstBytePutSince : Prop :=
  ∀ (order : List Port) (s t u : State), s.Inv → (∀ p ∈ order, p = .prod) → performOrder order s = .next t →
    (∃ e ∈ eventsSince s t, e.isClear = true) → t.pendingOp .cons .get → performPort .cons t = .next u →
    u.cons.resp = some (queueGet (acceptedBytes (sinceLastClear (eventsSince s t)))).1

/-- 70 R198: CLEAR races. A PUT may be kept or discarded, and a GET may return a byte or EMPTY. -/
def Obligations.ClearRacesDependOnTheOrder : Prop :=
  (∀ (s : State) (b : Byte), s.Inv → s.cnt = 0 → s.pendingOp .prod (.put b) → s.pendingOp .cons .clear →
    (∃ t, performOrder [.prod, .cons] s = .next t ∧ t.cnt = 0 ∧ t.queue = []) ∧
    (∃ t, performOrder [.cons, .prod] s = .next t ∧ t.cnt = 1 ∧ t.queue = [b])) ∧
  (∀ s : State, s.Inv → s.cnt ≠ 0 → s.pendingOp .prod .clear → s.pendingOp .cons .get →
    (∃ t, performOrder [.prod, .cons] s = .next t ∧ t.cons.resp = some ⟨.empty, 0⟩) ∧
    (∃ t, performOrder [.cons, .prod] s = .next t ∧
      t.cons.resp = some ⟨.ok, (s.memRead s.rd).toNat⟩ ∧ t.cnt = 0))

/-- 60 R167: a PUT and a GET presented together at a full buffer. -/
def Obligations.PutAndGetTogetherAtAFullBuffer : Prop :=
  ∀ (s : State) (b : Byte), s.Inv → s.cnt = s.cfg.cap → s.pendingOp .prod (.put b) → s.pendingOp .cons .get →
    (∃ t, performOrder [.cons, .prod] s = .next t ∧ t.prod.resp = some ⟨.ok, 0⟩ ∧
      t.cons.resp = some ⟨.ok, (s.memRead s.rd).toNat⟩ ∧ t.cnt = s.cfg.cap) ∧
    (∃ t, performOrder [.prod, .cons] s = .next t ∧ t.prod.resp = some ⟨.full, 0⟩ ∧
      t.cons.resp = some ⟨.ok, (s.memRead s.rd).toNat⟩ ∧ t.cnt = s.cfg.cap - 1)

/-- 20 R47: PEEK, COUNT and CAPACITY may be repeated, a second CLEAR adds nothing, a request that fails
changes nothing, and each successful PUT or GET moves the count. -/
def Obligations.RepeatingARequest : Prop :=
  (∀ (p : Port) (i : Instr) (s t u : State), i = .peek ∨ i = .count ∨ i = .capacity → s.pendingOp p i →
    performPort p s = .next t → t.pendingOp p i → performPort p t = .next u →
    SameBlock s t ∧ SameBlock t u ∧ (u.port p).resp = (t.port p).resp) ∧
  (∀ (p q : Port) (s t u : State), s.pendingOp p .clear → performPort p s = .next t → t.pendingOp q .clear →
    performPort q t = .next u → SameBlock t u) ∧
  (∀ (p : Port) (s t : State) (r : Response), performPort p s = .next t → (t.port p).resp = some r →
    r.status ≠ .ok → SameBlock s t) ∧
  (∀ (s t : State) (b : Byte), s.pendingOp .prod (.put b) → performPort .prod s = .next t →
    t.prod.resp = some ⟨.ok, 0⟩ → t.cnt = s.cnt + 1) ∧
  (∀ (s t : State) (v : Nat), s.pendingOp .cons .get → performPort .cons s = .next t →
    t.cons.resp = some ⟨.ok, v⟩ → t.cnt + 1 = s.cnt)

/-! ## Parameters, instances and notation -/

/-- 60 R169, 70 R201, 00 R7: no rule depends on ROLE, CLOCKING or LAT. Every perform order does the same
whatever they are. -/
def Obligations.RoleClockingAndLatencyChangeNothing : Prop :=
  ∀ (order : List Port) (s : State) (role : Role) (clocking : Clocking) (lat : Nat),
    performOrder order (s.withParameters role clocking lat) =
      Result.mapNext (fun t => t.withParameters role clocking lat) (performOrder order s)

/-- 10 R38, 20 R51: the driver's two instances share nothing. Each ends as its own steps alone leave it, in
whatever order the two take turns. -/
def Obligations.DriverInstancesAreIndependent : Prop :=
  ∀ (ns : List FifoName) (d d' : Driver), Driver.stepsFifo ns d = .next d' →
    d.rx.runSteps (ns.count .receive) = .next d'.rx ∧ d.tx.runSteps (ns.count .transmit) = .next d'.tx

/-- 30 R71: a line with a mnemonic assembles exactly when its operand is the one the mnemonic takes and the
operation is legal on its port, to the canonical word, which decodes to the operation there. -/
def Obligations.AssembledLinesSpellTheirOperation : Prop :=
  ∀ (p : Port) (m : Mnemonic) (byte : Option Byte) (e : Option Expected) (w : Request),
    (AsmLine.mk p (.op m byte e)).assemble = some w ↔
      ∃ i, m.instr byte = some i ∧ decode p w = .op i ∧ encode i = w

/-- 30 R71, 95 section 3: a listing loaded into a fresh instance is performed in its own order, to its end.
That the load gives the arbiter the listing's order is the model's choice (log 8), and that the history starts
empty is its reading (log 7). -/
def Obligations.ListingsRunInTheirOrder : Prop :=
  ∀ (c : Config) (n : Nat) (ls : List AsmLine) (s : State), loadListing (State.resetWith c n) ls = some s →
    ∃ t, s.runSteps ls.length = .next t ∧ t.history.map Event.port = ls.map AsmLine.port ∧
      ls.mapM AsmLine.assemble = some (t.history.map Event.req) ∧ t.ended = true
end

