-- ==== Sys2Proof/Laws/Decode.lean ====
section
/-! SUPPORT. What the fields of an encoded word are. -/

namespace Sys2Proof

@[simp] theorem opField_append (o : BitVec 3) (d : Byte) : opField (o ++ d) = o :=
  BitVec.extractLsb'_append_eq_left

@[simp] theorem wdataField_append (o : BitVec 3) (d : Byte) : wdataField (o ++ d) = d :=
  BitVec.extractLsb'_append_eq_right

/-- A word is its two fields (30 R60). -/
theorem opField_wdataField (w : Request) : opField w ++ wdataField w = w :=
  (BitVec.extractLsb'_append_extractLsb'_eq_extractLsb' (x := w) rfl).trans BitVec.extractLsb'_eq_self

/-- The mask of every row of the opcode map keeps the `op` field alone (30 R62). -/
theorem and_opMask (w : Request) : w &&& 0x700#11 = opField w ++ 0#8 := by
  have hm : (0x700#11 : BitVec (3 + 8)) = 7#3 ++ 0#8 := by decide
  conv_lhs => rw [← opField_wdataField w, hm]
  rw [BitVec.and_append]
  have h1 : opField w &&& 7#3 = opField w := by
    have : (7#3 : BitVec 3) = BitVec.allOnes 3 := by decide
    rw [this, BitVec.and_allOnes]
  rw [h1, BitVec.and_zero]

theorem opField_encode (i : Instr) : opField (encode i) = i.opcode := opField_append _ _

theorem wdataField_encode (i : Instr) : wdataField (encode i) = i.wdata := wdataField_append _ _

end Sys2Proof
end

