-- ==== Sys2Proof/Laws/State.lean ====
section
/-! SUPPORT. One lemma for each field of each named update, so that no proof unfolds a record update. -/

namespace Sys2Proof.Machine

variable (s : State)

/-! ### setRd -/

@[simp] theorem State.setRd_cfg (v : Nat) : (s.setRd v).cfg = s.cfg := rfl
@[simp] theorem State.setRd_buf (v : Nat) : (s.setRd v).buf = s.buf := rfl
@[simp] theorem State.setRd_rd (v : Nat) : (s.setRd v).rd = v := rfl
@[simp] theorem State.setRd_wr (v : Nat) : (s.setRd v).wr = s.wr := rfl
@[simp] theorem State.setRd_cnt (v : Nat) : (s.setRd v).cnt = s.cnt := rfl
@[simp] theorem State.setRd_prod (v : Nat) : (s.setRd v).prod = s.prod := rfl
@[simp] theorem State.setRd_cons (v : Nat) : (s.setRd v).cons = s.cons := rfl
@[simp] theorem State.setRd_turn (v : Nat) : (s.setRd v).turn = s.turn := rfl
@[simp] theorem State.setRd_history (v : Nat) : (s.setRd v).history = s.history := rfl
@[simp] theorem State.setRd_faultMark (v : Nat) : (s.setRd v).faultMark = s.faultMark := rfl
@[simp] theorem State.setRd_grants (v : Nat) : (s.setRd v).grants = s.grants := rfl
@[simp] theorem State.setRd_arbDraws (v : Nat) : (s.setRd v).arbDraws = s.arbDraws := rfl
@[simp] theorem State.setRd_launch (v : Nat) : (s.setRd v).launch = s.launch := rfl
@[simp] theorem State.setRd_port (v : Nat) (p : Port) : (s.setRd v).port p = s.port p := by cases p <;> rfl

/-! ### setWr -/

@[simp] theorem State.setWr_cfg (v : Nat) : (s.setWr v).cfg = s.cfg := rfl
@[simp] theorem State.setWr_buf (v : Nat) : (s.setWr v).buf = s.buf := rfl
@[simp] theorem State.setWr_rd (v : Nat) : (s.setWr v).rd = s.rd := rfl
@[simp] theorem State.setWr_wr (v : Nat) : (s.setWr v).wr = v := rfl
@[simp] theorem State.setWr_cnt (v : Nat) : (s.setWr v).cnt = s.cnt := rfl
@[simp] theorem State.setWr_prod (v : Nat) : (s.setWr v).prod = s.prod := rfl
@[simp] theorem State.setWr_cons (v : Nat) : (s.setWr v).cons = s.cons := rfl
@[simp] theorem State.setWr_turn (v : Nat) : (s.setWr v).turn = s.turn := rfl
@[simp] theorem State.setWr_history (v : Nat) : (s.setWr v).history = s.history := rfl
@[simp] theorem State.setWr_faultMark (v : Nat) : (s.setWr v).faultMark = s.faultMark := rfl
@[simp] theorem State.setWr_grants (v : Nat) : (s.setWr v).grants = s.grants := rfl
@[simp] theorem State.setWr_arbDraws (v : Nat) : (s.setWr v).arbDraws = s.arbDraws := rfl
@[simp] theorem State.setWr_launch (v : Nat) : (s.setWr v).launch = s.launch := rfl
@[simp] theorem State.setWr_port (v : Nat) (p : Port) : (s.setWr v).port p = s.port p := by cases p <;> rfl

/-! ### setCnt -/

@[simp] theorem State.setCnt_cfg (v : Nat) : (s.setCnt v).cfg = s.cfg := rfl
@[simp] theorem State.setCnt_buf (v : Nat) : (s.setCnt v).buf = s.buf := rfl
@[simp] theorem State.setCnt_rd (v : Nat) : (s.setCnt v).rd = s.rd := rfl
@[simp] theorem State.setCnt_wr (v : Nat) : (s.setCnt v).wr = s.wr := rfl
@[simp] theorem State.setCnt_cnt (v : Nat) : (s.setCnt v).cnt = v := rfl
@[simp] theorem State.setCnt_prod (v : Nat) : (s.setCnt v).prod = s.prod := rfl
@[simp] theorem State.setCnt_cons (v : Nat) : (s.setCnt v).cons = s.cons := rfl
@[simp] theorem State.setCnt_turn (v : Nat) : (s.setCnt v).turn = s.turn := rfl
@[simp] theorem State.setCnt_history (v : Nat) : (s.setCnt v).history = s.history := rfl
@[simp] theorem State.setCnt_faultMark (v : Nat) : (s.setCnt v).faultMark = s.faultMark := rfl
@[simp] theorem State.setCnt_grants (v : Nat) : (s.setCnt v).grants = s.grants := rfl
@[simp] theorem State.setCnt_arbDraws (v : Nat) : (s.setCnt v).arbDraws = s.arbDraws := rfl
@[simp] theorem State.setCnt_launch (v : Nat) : (s.setCnt v).launch = s.launch := rfl
@[simp] theorem State.setCnt_port (v : Nat) (p : Port) : (s.setCnt v).port p = s.port p := by cases p <;> rfl

/-! ### memWrite -/

@[simp] theorem State.memWrite_cfg (i : Nat) (v : Byte) : (s.memWrite i v).cfg = s.cfg := rfl
@[simp] theorem State.memWrite_buf (i : Nat) (v : Byte) : (s.memWrite i v).buf = s.buf.write i v := rfl
@[simp] theorem State.memWrite_rd (i : Nat) (v : Byte) : (s.memWrite i v).rd = s.rd := rfl
@[simp] theorem State.memWrite_wr (i : Nat) (v : Byte) : (s.memWrite i v).wr = s.wr := rfl
@[simp] theorem State.memWrite_cnt (i : Nat) (v : Byte) : (s.memWrite i v).cnt = s.cnt := rfl
@[simp] theorem State.memWrite_prod (i : Nat) (v : Byte) : (s.memWrite i v).prod = s.prod := rfl
@[simp] theorem State.memWrite_cons (i : Nat) (v : Byte) : (s.memWrite i v).cons = s.cons := rfl
@[simp] theorem State.memWrite_turn (i : Nat) (v : Byte) : (s.memWrite i v).turn = s.turn := rfl
@[simp] theorem State.memWrite_history (i : Nat) (v : Byte) : (s.memWrite i v).history = s.history := rfl
@[simp] theorem State.memWrite_faultMark (i : Nat) (v : Byte) : (s.memWrite i v).faultMark = s.faultMark := rfl
@[simp] theorem State.memWrite_grants (i : Nat) (v : Byte) : (s.memWrite i v).grants = s.grants := rfl
@[simp] theorem State.memWrite_arbDraws (i : Nat) (v : Byte) : (s.memWrite i v).arbDraws = s.arbDraws := rfl
@[simp] theorem State.memWrite_launch (i : Nat) (v : Byte) : (s.memWrite i v).launch = s.launch := rfl
@[simp] theorem State.memWrite_port (i : Nat) (v : Byte) (p : Port) : (s.memWrite i v).port p = s.port p := by cases p <;> rfl

/-! ### markFault -/

@[simp] theorem State.markFault_cfg : (s.markFault).cfg = s.cfg := rfl
@[simp] theorem State.markFault_buf : (s.markFault).buf = s.buf := rfl
@[simp] theorem State.markFault_rd : (s.markFault).rd = s.rd := rfl
@[simp] theorem State.markFault_wr : (s.markFault).wr = s.wr := rfl
@[simp] theorem State.markFault_cnt : (s.markFault).cnt = s.cnt := rfl
@[simp] theorem State.markFault_prod : (s.markFault).prod = s.prod := rfl
@[simp] theorem State.markFault_cons : (s.markFault).cons = s.cons := rfl
@[simp] theorem State.markFault_turn : (s.markFault).turn = s.turn := rfl
@[simp] theorem State.markFault_history : (s.markFault).history = s.history := rfl
@[simp] theorem State.markFault_faultMark : (s.markFault).faultMark = true := rfl
@[simp] theorem State.markFault_grants : (s.markFault).grants = s.grants := rfl
@[simp] theorem State.markFault_arbDraws : (s.markFault).arbDraws = s.arbDraws := rfl
@[simp] theorem State.markFault_launch : (s.markFault).launch = s.launch := rfl
@[simp] theorem State.markFault_port (p : Port) : (s.markFault).port p = s.port p := by cases p <;> rfl

/-! ### granted -/

@[simp] theorem State.granted_cfg : (s.granted).cfg = s.cfg := rfl
@[simp] theorem State.granted_buf : (s.granted).buf = s.buf := rfl
@[simp] theorem State.granted_rd : (s.granted).rd = s.rd := rfl
@[simp] theorem State.granted_wr : (s.granted).wr = s.wr := rfl
@[simp] theorem State.granted_cnt : (s.granted).cnt = s.cnt := rfl
@[simp] theorem State.granted_prod : (s.granted).prod = s.prod := rfl
@[simp] theorem State.granted_cons : (s.granted).cons = s.cons := rfl
@[simp] theorem State.granted_turn : (s.granted).turn = s.turn := rfl
@[simp] theorem State.granted_history : (s.granted).history = s.history := rfl
@[simp] theorem State.granted_faultMark : (s.granted).faultMark = s.faultMark := rfl
@[simp] theorem State.granted_grants : (s.granted).grants = s.grants.tail := rfl
@[simp] theorem State.granted_arbDraws : (s.granted).arbDraws = if s.drawsFreely then s.arbDraws + 1 else s.arbDraws := rfl
@[simp] theorem State.granted_launch : (s.granted).launch = s.launch := rfl
@[simp] theorem State.granted_port (p : Port) : (s.granted).port p = s.port p := by cases p <;> rfl

/-! ### Ports -/

@[simp] theorem Port.other_other (p : Port) : p.other.other = p := by cases p <;> rfl
@[simp] theorem Port.other_ne (p : Port) : p.other ≠ p := by cases p <;> decide
theorem Port.eq_or_other (p q : Port) : q = p ∨ q = p.other := by cases p <;> cases q <;> decide
@[simp] theorem State.port_prod : s.port .prod = s.prod := rfl
@[simp] theorem State.port_cons : s.port .cons = s.cons := rfl
@[simp] theorem State.setPort_same (p : Port) (ps : PortState) : (s.setPort p ps).port p = ps := by
  cases p <;> rfl
@[simp] theorem State.setPort_other (p : Port) (ps : PortState) :
    (s.setPort p ps).port p.other = s.port p.other := by cases p <;> rfl
theorem State.port_setPort (p q : Port) (ps : PortState) :
    (s.setPort p ps).port q = if q = p then ps else s.port q := by cases p <;> cases q <;> rfl

@[simp] theorem State.setPort_cfg (p : Port) (ps : PortState) : (s.setPort p ps).cfg = s.cfg := by cases p <;> rfl
@[simp] theorem State.setPort_buf (p : Port) (ps : PortState) : (s.setPort p ps).buf = s.buf := by cases p <;> rfl
@[simp] theorem State.setPort_rd (p : Port) (ps : PortState) : (s.setPort p ps).rd = s.rd := by cases p <;> rfl
@[simp] theorem State.setPort_wr (p : Port) (ps : PortState) : (s.setPort p ps).wr = s.wr := by cases p <;> rfl
@[simp] theorem State.setPort_cnt (p : Port) (ps : PortState) : (s.setPort p ps).cnt = s.cnt := by cases p <;> rfl
@[simp] theorem State.setPort_turn (p : Port) (ps : PortState) : (s.setPort p ps).turn = s.turn := by cases p <;> rfl
@[simp] theorem State.setPort_history (p : Port) (ps : PortState) : (s.setPort p ps).history = s.history := by cases p <;> rfl
@[simp] theorem State.setPort_faultMark (p : Port) (ps : PortState) : (s.setPort p ps).faultMark = s.faultMark := by cases p <;> rfl
@[simp] theorem State.setPort_grants (p : Port) (ps : PortState) : (s.setPort p ps).grants = s.grants := by cases p <;> rfl
@[simp] theorem State.setPort_arbDraws (p : Port) (ps : PortState) : (s.setPort p ps).arbDraws = s.arbDraws := by cases p <;> rfl
@[simp] theorem State.setPort_launch (p : Port) (ps : PortState) : (s.setPort p ps).launch = s.launch := by cases p <;> rfl

/-! ### accept -/

@[simp] theorem State.accept_cfg (p : Port) (w : Request) : (s.accept p w).cfg = s.cfg := by cases p <;> rfl
@[simp] theorem State.accept_buf (p : Port) (w : Request) : (s.accept p w).buf = s.buf := by cases p <;> rfl
@[simp] theorem State.accept_rd (p : Port) (w : Request) : (s.accept p w).rd = s.rd := by cases p <;> rfl
@[simp] theorem State.accept_wr (p : Port) (w : Request) : (s.accept p w).wr = s.wr := by cases p <;> rfl
@[simp] theorem State.accept_cnt (p : Port) (w : Request) : (s.accept p w).cnt = s.cnt := by cases p <;> rfl
@[simp] theorem State.accept_turn (p : Port) (w : Request) : (s.accept p w).turn = p := by cases p <;> rfl
@[simp] theorem State.accept_history (p : Port) (w : Request) : (s.accept p w).history = s.history := by cases p <;> rfl
@[simp] theorem State.accept_faultMark (p : Port) (w : Request) : (s.accept p w).faultMark = s.faultMark := by cases p <;> rfl
@[simp] theorem State.accept_grants (p : Port) (w : Request) : (s.accept p w).grants = s.grants := by cases p <;> rfl
@[simp] theorem State.accept_arbDraws (p : Port) (w : Request) : (s.accept p w).arbDraws = s.arbDraws := by cases p <;> rfl
@[simp] theorem State.accept_launch (p : Port) (w : Request) : (s.accept p w).launch = s.launch := by cases p <;> rfl
@[simp] theorem State.accept_same (p : Port) (w : Request) :
    (s.accept p w).port p = ⟨(s.port p).prog, (s.port p).pi, some w, (s.port p).resp⟩ := by cases p <;> rfl
@[simp] theorem State.accept_other (p : Port) (w : Request) :
    (s.accept p w).port p.other = s.port p.other := by cases p <;> rfl

/-! ### complete -/

@[simp] theorem State.complete_cfg (w : Request) (r : Response) : (s.complete w r).cfg = s.cfg := by simp [State.complete]
@[simp] theorem State.complete_buf (w : Request) (r : Response) : (s.complete w r).buf = s.buf := by simp [State.complete]
@[simp] theorem State.complete_rd (w : Request) (r : Response) : (s.complete w r).rd = s.rd := by simp [State.complete]
@[simp] theorem State.complete_wr (w : Request) (r : Response) : (s.complete w r).wr = s.wr := by simp [State.complete]
@[simp] theorem State.complete_cnt (w : Request) (r : Response) : (s.complete w r).cnt = s.cnt := by simp [State.complete]
@[simp] theorem State.complete_turn (w : Request) (r : Response) : (s.complete w r).turn = s.turn := by simp [State.complete]
@[simp] theorem State.complete_history (w : Request) (r : Response) : (s.complete w r).history = s.history ++ [⟨s.turn, w, r⟩] := rfl
@[simp] theorem State.complete_faultMark (w : Request) (r : Response) : (s.complete w r).faultMark = s.faultMark := by simp [State.complete]
@[simp] theorem State.complete_grants (w : Request) (r : Response) : (s.complete w r).grants = s.grants := by simp [State.complete]
@[simp] theorem State.complete_arbDraws (w : Request) (r : Response) : (s.complete w r).arbDraws = s.arbDraws := by simp [State.complete]
@[simp] theorem State.complete_launch (w : Request) (r : Response) : (s.complete w r).launch = s.launch := by simp [State.complete]
@[simp] theorem State.complete_same (w : Request) (r : Response) :
    (s.complete w r).port s.turn = (s.port s.turn).answered r := by
  unfold State.complete; cases s.turn <;> rfl
@[simp] theorem State.complete_other (w : Request) (r : Response) :
    (s.complete w r).port s.turn.other = s.port s.turn.other := by
  unfold State.complete; cases s.turn <;> rfl

end Sys2Proof.Machine
end

