-- ==== Sys2Proof/Laws/Ops.lean ====
section
/-! SUPPORT. What the shared operations do: storage laws (read after write, the canonical form kept),
the index advance, widths, `respond` and the legality check, and the queue contents under PUT and GET. -/

namespace Sys2Proof.Machine

/-! ### Storage -/

theorem Memory.read?_write (m : Memory) (i j : Nat) (v : Byte) :
    (m.write i v).read? j = if i = j then some v else m.read? j := by
  induction m with
  | nil => simp [Memory.write, Memory.read?]
  | cons e m ih =>
    obtain ⟨a, b⟩ := e
    unfold Memory.write
    split
    · simp [Memory.read?]
    · split
      · next hai => subst hai; by_cases h : i = j <;> simp [Memory.read?, h]
      · simp only [Memory.read?, ih]
        by_cases h : a = j
        · have : i ≠ j := by omega
          simp [h, this]
        · simp [h]

@[simp] theorem Memory.read?_write_same (m : Memory) (i : Nat) (v : Byte) :
    (m.write i v).read? i = some v := by simp [Memory.read?_write]

theorem Memory.risingFrom_mono {m : Memory} {lo hi : Nat} (h : m.risingFrom hi = true) (hle : lo ≤ hi) :
    m.risingFrom lo = true := by
  cases m with
  | nil => rfl
  | cons e m => simp only [Memory.risingFrom, Bool.and_eq_true, decide_eq_true_eq] at h ⊢; exact ⟨by omega, h.2⟩

theorem Memory.risingFrom_write {m : Memory} {lo i : Nat} (v : Byte) (h : m.risingFrom lo = true) (hi : lo ≤ i) :
    (m.write i v).risingFrom lo = true := by
  induction m generalizing lo with
  | nil => simp [Memory.write, Memory.risingFrom, hi]
  | cons e m ih =>
    obtain ⟨a, b⟩ := e
    simp only [Memory.risingFrom, Bool.and_eq_true, decide_eq_true_eq] at h
    unfold Memory.write
    split
    · simp only [Memory.risingFrom, Bool.and_eq_true, decide_eq_true_eq]
      exact ⟨hi, by omega, h.2⟩
    · split
      · subst_vars
        simp only [Memory.risingFrom, Bool.and_eq_true, decide_eq_true_eq]
        exact ⟨hi, h.2⟩
      · simp only [Memory.risingFrom, Bool.and_eq_true, decide_eq_true_eq]
        exact ⟨h.1, ih h.2 (by omega)⟩

/-- A write keeps the canonical form. -/
theorem Memory.wf_write {m : Memory} (i : Nat) (v : Byte) (h : m.wf = true) : (m.write i v).wf = true :=
  Memory.risingFrom_write v h (Nat.zero_le i)

/-- A write to a slot that exists lists only slots that exist. -/
theorem Memory.inRange_write {m : Memory} {cap i : Nat} (v : Byte) (h : m.inRange cap = true) (hi : i < cap) :
    (m.write i v).inRange cap = true := by
  induction m with
  | nil => simp [Memory.write, Memory.inRange, hi]
  | cons e m ih =>
    obtain ⟨a, b⟩ := e
    simp only [Memory.inRange, List.all_cons, Bool.and_eq_true, decide_eq_true_eq] at h ih ⊢
    unfold Memory.write
    split
    · simp only [List.all_cons, Bool.and_eq_true, decide_eq_true_eq]; exact ⟨hi, h⟩
    · split
      · simp only [List.all_cons, Bool.and_eq_true, decide_eq_true_eq]; exact ⟨hi, h.2⟩
      · simp only [List.all_cons, Bool.and_eq_true, decide_eq_true_eq]; exact ⟨h.1, ih h.2⟩

/-- Storage in canonical form is determined by what its slots hold: equal memories are equal lists. -/
theorem Memory.read?_lt {m : Memory} {lo i : Nat} (h : m.risingFrom lo = true) (hi : i < lo) :
    m.read? i = none := by
  induction m generalizing lo with
  | nil => rfl
  | cons e m ih =>
    obtain ⟨a, b⟩ := e
    simp only [Memory.risingFrom, Bool.and_eq_true, decide_eq_true_eq] at h
    have : a ≠ i := by omega
    simp only [Memory.read?, this, if_false]
    exact ih h.2 (by omega)

theorem Memory.ext_risingFrom {m n : Memory} {lo : Nat} (hm : m.risingFrom lo = true) (hn : n.risingFrom lo = true)
    (h : ∀ i, m.read? i = n.read? i) : m = n := by
  induction m generalizing n lo with
  | nil =>
    cases n with
    | nil => rfl
    | cons e n => have := h e.1; simp [Memory.read?] at this
  | cons e m ih =>
    cases n with
    | nil => have := h e.1; simp [Memory.read?] at this
    | cons f n =>
      obtain ⟨a, b⟩ := e
      obtain ⟨c, d⟩ := f
      simp only [Memory.risingFrom, Bool.and_eq_true, decide_eq_true_eq] at hm hn
      have hac : a = c := by
        rcases Nat.lt_trichotomy a c with hlt | heq | hgt
        · have h1 := h a
          have : c ≠ a := by omega
          simp only [Memory.read?, if_true, this, if_false] at h1
          rw [Memory.read?_lt hn.2 (by omega)] at h1
          cases h1
        · exact heq
        · have h1 := h c
          have : a ≠ c := by omega
          simp only [Memory.read?, if_true, this, if_false] at h1
          rw [Memory.read?_lt hm.2 (by omega)] at h1
          cases h1
      subst hac
      have hbd := h a
      simp only [Memory.read?, if_true, Option.some.injEq] at hbd
      subst hbd
      congr 1
      refine ih hm.2 hn.2 fun i => ?_
      by_cases hi : a = i
      · subst hi
        rw [Memory.read?_lt hm.2 (by omega), Memory.read?_lt hn.2 (by omega)]
      · have := h i
        simpa only [Memory.read?, hi, if_false] using this

theorem Memory.ext {m n : Memory} (hm : m.wf = true) (hn : n.wf = true)
    (h : ∀ i, m.read? i = n.read? i) : m = n := Memory.ext_risingFrom hm hn h

theorem State.memRead_memWrite (s : State) (i j : Nat) (v : Byte) :
    (s.memWrite i v).memRead j = if i = j then v else s.memRead j := by
  simp only [State.memRead, State.memWrite_buf, State.memWrite_launch, Memory.read?_write]
  split <;> simp_all

/-- What `MemRead` gives depends on the storage and the launch only. -/
theorem State.memRead_congr {s t : State} (hb : t.buf = s.buf) (hl : t.launch = s.launch) (i : Nat) :
    t.memRead i = s.memRead i := by simp [State.memRead, hb, hl]

@[simp] theorem State.memRead_complete (s : State) (w : Request) (r : Response) (i : Nat) :
    (s.complete w r).memRead i = s.memRead i := State.memRead_congr (by simp) (by simp) i

@[simp] theorem State.memRead_accept (s : State) (p : Port) (w : Request) (i : Nat) :
    (s.accept p w).memRead i = s.memRead i := State.memRead_congr (by simp) (by simp) i

/-! ### Index advance (40 R91) -/

@[simp] theorem State.inc_accept (s : State) (p : Port) (w : Request) (i : Nat) :
    (s.accept p w).inc i = s.inc i := by simp [State.inc]

theorem State.inc_eq (s : State) {i : Nat} (hi : i < s.cfg.cap) : s.inc i = (i + 1) % s.cfg.cap := by
  unfold State.inc
  split
  · have : i + 1 = s.cfg.cap := by omega
    rw [this, Nat.mod_self]
  · rw [Nat.mod_eq_of_lt (by omega)]

theorem State.inc_lt (s : State) {i : Nat} (hi : i < s.cfg.cap) : s.inc i < s.cfg.cap := by
  rw [s.inc_eq hi]; exact Nat.mod_lt _ s.cfg.cap_pos

end Sys2Proof.Machine

namespace Sys2Proof

/-! ### Widths (00 R7) -/

theorem lt_two_pow_bitlen (n : Nat) : n < 2 ^ bitlen n := by
  unfold bitlen
  split
  · simp_all
  · exact Nat.lt_log2_self

theorem bitlen_mono {m n : Nat} (h : m ≤ n) : bitlen m ≤ bitlen n := by
  unfold bitlen
  by_cases hm : m = 0
  · simp [hm]
  · have hn : n ≠ 0 := by omega
    simp only [hm, hn, if_false, Nat.add_le_add_iff_right]
    exact (Nat.le_log2 hn).2 ((Nat.log2_self_le hm).trans h)

theorem Config.lt_rw {c : Config} {v : Nat} (h : v ≤ c.cap) : v < 2 ^ c.rw :=
  (lt_of_le_of_lt h (lt_two_pow_bitlen c.cap)).trans_le
    (Nat.pow_le_pow_right (by decide) (Nat.le_max_right _ _))

theorem Config.byte_lt_rw (c : Config) (b : Byte) : b.toNat < 2 ^ c.rw :=
  b.isLt.trans_le (Nat.pow_le_pow_right (by decide) (Nat.le_max_left _ _))

@[simp] theorem zextRw_cap (c : Config) : zextRw c c.cap = c.cap := Nat.mod_eq_of_lt (Config.lt_rw le_rfl)
theorem zextRw_of_le {c : Config} {v : Nat} (h : v ≤ c.cap) : zextRw c v = v := Nat.mod_eq_of_lt (Config.lt_rw h)
@[simp] theorem zextRw_byte (c : Config) (b : Byte) : zextRw c b.toNat = b.toNat :=
  Nat.mod_eq_of_lt (c.byte_lt_rw b)

end Sys2Proof

namespace Sys2Proof.Machine

/-! ### respond and the legality check -/

/-- All that `respond` can do. -/
theorem respond_next {st : Status} {d : Nat} {s t : State} :
    respond st d s = .next t ↔
      ∃ w, (s.port s.turn).inFlight = some w ∧ t = s.complete w ⟨st, d⟩ := by
  unfold respond
  cases h : (s.port s.turn).inFlight with
  | none => simp
  | some w => simp [eq_comm]

theorem respond_of_inFlight {s : State} {w : Request} (h : (s.port s.turn).inFlight = some w) (st : Status)
    (d : Nat) : respond st d s = .next (s.complete w ⟨st, d⟩) := by
  unfold respond; rw [h]

theorem raiseIllegal_next {s t : State} :
    raiseIllegal s = .next t ↔
      ∃ w, (s.port s.turn).inFlight = some w ∧ t = s.markFault.complete w ⟨.illegal, 0⟩ := by
  simp [raiseIllegal, respond_next]

theorem whenLegal_legal {i : Instr} {s : State} (h : i.legalOn s.turn = true) (k : Result) :
    whenLegal i s k = k := by simp [whenLegal, h]

theorem whenLegal_illegal {i : Instr} {s : State} (h : i.legalOn s.turn = false) (k : Result) :
    whenLegal i s k = raiseIllegal s := by simp [whenLegal, h]

theorem withSlot_of_lt {s : State} {i : Nat} (h : i < s.cfg.cap) (k : Result) : withSlot s i k = k := by
  simp [withSlot, h]

/-! ### Pending requests -/

theorem PortState.pending_lt {ps : PortState} {w : Request} (h : ps.pending = some w) :
    ps.pi < ps.prog.length := by
  unfold PortState.pending at h
  exact (List.getElem?_eq_some_iff.1 h).1

theorem PortState.pending_isSome {ps : PortState} : ps.pending.isSome = true ↔ ps.pi < ps.prog.length := by
  simp [PortState.pending]

theorem State.isPending_iff (s : State) (p : Port) : s.isPending p = true ↔ ∃ w, (s.port p).pending = some w := by
  simp [State.isPending, Option.isSome_iff_exists]

/-! ### The queue contents (10 R30) -/

theorem State.queue_length (s : State) : s.queue.length = s.cnt := by simp [State.queue, State.liveWindow]

/-- The queue contents depend on the window, the storage, CAP and the launch's draw only. -/
theorem State.queue_congr {s t : State} (hc : t.cfg = s.cfg) (hb : t.buf = s.buf) (hl : t.launch = s.launch)
    (hr : t.rd = s.rd) (hn : t.cnt = s.cnt) : t.queue = s.queue := by
  simp [State.queue, State.liveWindow, State.memRead, hc, hb, hl, hr, hn]

theorem State.queue_empty {s : State} (h : s.cnt = 0) : s.queue = [] := by
  simp [State.queue, State.liveWindow, h]

/-- A live slot other than the next one to write. -/
theorem ring_ne {rd cnt cap k : Nat} (hrd : rd < cap) (hc : cnt < cap) (hk : k < cnt) :
    (rd + cnt) % cap ≠ (rd + k) % cap := by
  rcases Nat.lt_or_ge (rd + cnt) cap with h1 | h1
  · rw [Nat.mod_eq_of_lt h1, Nat.mod_eq_of_lt (by omega)]; omega
  · rw [Nat.mod_eq_sub_mod h1, Nat.mod_eq_of_lt (by omega : rd + cnt - cap < cap)]
    rcases Nat.lt_or_ge (rd + k) cap with h2 | h2
    · rw [Nat.mod_eq_of_lt h2]; omega
    · rw [Nat.mod_eq_sub_mod h2, Nat.mod_eq_of_lt (by omega)]; omega

/-- PUT appends its byte (10 R30). -/
theorem State.queue_put {s t : State} {b : Byte} (hrd : s.rd < s.cfg.cap) (hlt : s.cnt < s.cfg.cap)
    (hring : s.wr = (s.rd + s.cnt) % s.cfg.cap) (hc : t.cfg = s.cfg) (hb : t.buf = s.buf.write s.wr b)
    (hl : t.launch = s.launch) (hr : t.rd = s.rd) (hn : t.cnt = s.cnt + 1) : t.queue = s.queue ++ [b] := by
  have hread : ∀ j, t.memRead j = if s.wr = j then b else s.memRead j := by
    intro j
    rw [← s.memRead_memWrite s.wr j b]
    exact State.memRead_congr (s := s.memWrite s.wr b) (by simp [hb]) (by simp [hl]) j
  simp only [State.queue, State.liveWindow, hc, hr, hn, List.range_succ, List.map_append, List.map_map,
    List.map_cons, List.map_nil]
  congr 1
  · refine List.map_congr_left fun k hk => ?_
    have hk := List.mem_range.1 hk
    simp only [Function.comp_apply, hread, hring, if_neg (ring_ne hrd hlt hk)]
  · simp [hread, hring]

/-- GET takes the head (10 R30). -/
theorem State.queue_get {s t : State} (hrd : s.rd < s.cfg.cap) (hne : s.cnt ≠ 0) (hc : t.cfg = s.cfg)
    (hb : t.buf = s.buf) (hl : t.launch = s.launch) (hr : t.rd = s.inc s.rd) (hn : t.cnt = s.cnt - 1) :
    s.queue = s.memRead s.rd :: t.queue := by
  obtain ⟨n, hn'⟩ : ∃ n, s.cnt = n + 1 := ⟨s.cnt - 1, by omega⟩
  have hread : ∀ j, t.memRead j = s.memRead j := State.memRead_congr hb hl
  have ht : t.cnt = n := by omega
  simp only [State.queue, State.liveWindow, hc, hr, ht, hn', List.range_succ_eq_map, List.map_cons, List.map_map,
    Nat.add_zero, Nat.mod_eq_of_lt hrd]
  congr 1
  refine List.map_congr_left fun k _ => ?_
  simp only [Function.comp_apply, hread, s.inc_eq hrd]
  congr 1
  rw [Nat.mod_add_mod]; congr 1; omega

/-- The head of a queue that is not empty (10 R30). -/
theorem State.queue_head {s : State} (hrd : s.rd < s.cfg.cap) (hne : s.cnt ≠ 0) :
    ∃ q, s.queue = s.memRead s.rd :: q :=
  ⟨_, State.queue_get (t := { s with rd := s.inc s.rd, cnt := s.cnt - 1 }) hrd hne rfl rfl rfl rfl rfl⟩

end Sys2Proof.Machine
end

