-- ==== Sys2Proof/Laws/Exec.lean ====
section
/-! SUPPORT. Everything an operation, a performed request, a step and a perform order can do, said once:
proofs about them take these cases apart instead of unfolding the machine. -/

namespace Sys2Proof.Machine

/-- What operation `i` does to the state before its response is completed, and the response. -/
inductive Effect : Instr → State → State → Response → Prop where
  | illegal {i s} (h : i.legalOn s.turn = false) : Effect i s s.markFault ⟨.illegal, 0⟩
  | clear {s} : Effect .clear s (((s.setCnt 0).setRd 0).setWr 0) ⟨.ok, 0⟩
  | capacity {s} : Effect .capacity s s ⟨.ok, s.cfg.cap⟩
  | putFull {b s} (ht : s.turn = .prod) (hf : s.cnt = s.cfg.cap) : Effect (.put b) s s ⟨.full, 0⟩
  | put {b s} (ht : s.turn = .prod) (hf : s.cnt ≠ s.cfg.cap) (hw : s.wr < s.cfg.cap) :
      Effect (.put b) s (((s.memWrite s.wr b).setWr (s.inc s.wr)).setCnt (s.cnt + 1)) ⟨.ok, 0⟩
  | getEmpty {s} (ht : s.turn = .cons) (he : s.cnt = 0) : Effect .get s s ⟨.empty, 0⟩
  | get {s} (ht : s.turn = .cons) (he : s.cnt ≠ 0) (hr : s.rd < s.cfg.cap) :
      Effect .get s ((s.setRd (s.inc s.rd)).setCnt (s.cnt - 1)) ⟨.ok, (s.memRead s.rd).toNat⟩
  | peekEmpty {s} (ht : s.turn = .cons) (he : s.cnt = 0) : Effect .peek s s ⟨.empty, 0⟩
  | peek {s} (ht : s.turn = .cons) (he : s.cnt ≠ 0) (hr : s.rd < s.cfg.cap) :
      Effect .peek s s ⟨.ok, (s.memRead s.rd).toNat⟩
  | count {s} : Effect .count s s ⟨.ok, zextRw s.cfg s.cnt⟩

theorem legalOn_put (b : Byte) (p : Port) : (Instr.put b).legalOn p = true ↔ p = .prod := by
  cases p <;> simp [Instr.legalOn]
theorem legalOn_get (p : Port) : Instr.get.legalOn p = true ↔ p = .cons := by cases p <;> simp [Instr.legalOn]
theorem legalOn_peek (p : Port) : Instr.peek.legalOn p = true ↔ p = .cons := by cases p <;> simp [Instr.legalOn]
@[simp] theorem legalOn_clear (p : Port) : Instr.clear.legalOn p = true := by cases p <;> rfl
@[simp] theorem legalOn_capacity (p : Port) : Instr.capacity.legalOn p = true := by cases p <;> rfl
@[simp] theorem legalOn_count (p : Port) : Instr.count.legalOn p = true := by cases p <;> rfl

/-- An effect writes neither the parameters, the ports, the history nor the model's own fields. -/
theorem Effect.frame {i : Instr} {s u : State} {r : Response} (h : Effect i s u r) :
    u.cfg = s.cfg ∧ u.prod = s.prod ∧ u.cons = s.cons ∧ u.turn = s.turn ∧ u.history = s.history ∧
      u.grants = s.grants ∧ u.arbDraws = s.arbDraws ∧ u.launch = s.launch := by
  cases h <;> exact ⟨rfl, rfl, rfl, rfl, rfl, rfl, rfl, rfl⟩

theorem Effect.port {i : Instr} {s u : State} {r : Response} (h : Effect i s u r) (p : Port) :
    u.port p = s.port p := by
  obtain ⟨-, hp, hc, -⟩ := h.frame
  cases p
  · exact hp
  · exact hc

/-- Whatever the effect, completing it leaves what 40 R85 says. -/
theorem Effect.answered {i : Instr} {s u : State} {r : Response} (w : Request) (h : Effect i s u r) :
    AnsweredWith s (u.complete w r) w r := by
  obtain ⟨hc, -, -, ht, hh, hg, ha, hl⟩ := h.frame
  have h1 := u.complete_same w r
  have h2 := u.complete_other w r
  rw [ht, h.port] at h1 h2
  exact ⟨by simpa [PortState.answered] using h1, h2, by simp [hh, ht], by simpa using hc, by simpa using ht,
    by simpa using hg, by simpa using ha, by simpa using hl⟩

/-- The effect ends in its response. -/
theorem exec_of_effect {i : Instr} {s u : State} {r : Response} {w : Request} (h : Effect i s u r)
    (hw : (s.port s.turn).inFlight = some w) : exec i s = .next (u.complete w r) := by
  have hu : (u.port u.turn).inFlight = some w := by rw [h.port, h.frame.2.2.2.1]; exact hw
  cases h with
  | illegal hl => cases i <;> simp only [exec, execClear, execCapacity, execPut, execGet, execPeek, execCount,
      whenLegal_illegal hl] <;> exact raiseIllegal_next.2 ⟨w, hw, rfl⟩
  | clear => exact (whenLegal_legal (legalOn_clear s.turn) _).trans (respond_of_inFlight hu _ _)
  | capacity =>
    refine (whenLegal_legal (legalOn_capacity s.turn) _).trans ?_
    rw [zextRw_cap]; exact respond_of_inFlight hu _ _
  | putFull ht hf =>
    refine (whenLegal_legal ((legalOn_put _ _).2 ht) _).trans ?_
    simp only [State.isFull, hf, decide_true, if_true]; exact respond_of_inFlight hu _ _
  | put ht hf hwr =>
    refine (whenLegal_legal ((legalOn_put _ _).2 ht) _).trans ?_
    simp only [State.isFull, hf, decide_false, Bool.false_eq_true, if_false, State.putSlot]
    exact (withSlot_of_lt hwr _).trans (respond_of_inFlight hu _ _)
  | getEmpty ht he =>
    refine (whenLegal_legal ((legalOn_get _).2 ht) _).trans ?_
    simp only [State.isEmpty, he, decide_true, if_true]; exact respond_of_inFlight hu _ _
  | get ht he hr =>
    refine (whenLegal_legal ((legalOn_get _).2 ht) _).trans ?_
    simp only [State.isEmpty, he, decide_false, Bool.false_eq_true, if_false, State.headSlot, zextRw_byte]
    exact (withSlot_of_lt hr _).trans (respond_of_inFlight hu _ _)
  | peekEmpty ht he =>
    refine (whenLegal_legal ((legalOn_peek _).2 ht) _).trans ?_
    simp only [State.isEmpty, he, decide_true, if_true]; exact respond_of_inFlight hu _ _
  | peek ht he hr =>
    refine (whenLegal_legal ((legalOn_peek _).2 ht) _).trans ?_
    simp only [State.isEmpty, he, decide_false, Bool.false_eq_true, if_false, State.headSlot, zextRw_byte]
    exact (withSlot_of_lt hr _).trans (respond_of_inFlight hu _ _)
  | count => exact (whenLegal_legal (legalOn_count s.turn) _).trans (respond_of_inFlight hu _ _)

/-- Every operation has an effect wherever the slot it touches exists. -/
theorem Effect.exists {s : State} (i : Instr) (hr : s.rd < s.cfg.cap) (hw : s.wr < s.cfg.cap) :
    ∃ u r, Effect i s u r := by
  cases hl : i.legalOn s.turn with
  | false => exact ⟨_, _, .illegal hl⟩
  | true =>
    cases i with
    | clear => exact ⟨_, _, .clear⟩
    | capacity => exact ⟨_, _, .capacity⟩
    | count => exact ⟨_, _, .count⟩
    | put b =>
      by_cases h : s.cnt = s.cfg.cap
      · exact ⟨_, _, .putFull ((legalOn_put _ _).1 hl) h⟩
      · exact ⟨_, _, .put ((legalOn_put _ _).1 hl) h hw⟩
    | get =>
      by_cases h : s.cnt = 0
      · exact ⟨_, _, .getEmpty ((legalOn_get _).1 hl) h⟩
      · exact ⟨_, _, .get ((legalOn_get _).1 hl) h hr⟩
    | peek =>
      by_cases h : s.cnt = 0
      · exact ⟨_, _, .peekEmpty ((legalOn_peek _).1 hl) h⟩
      · exact ⟨_, _, .peek ((legalOn_peek _).1 hl) h hr⟩

theorem withSlot_respond_next {s t u : State} {i d : Nat} {st : Status} (h : withSlot s i (respond st d u) = .next t) :
    i < s.cfg.cap ∧ ∃ w, (u.port u.turn).inFlight = some w ∧ t = u.complete w ⟨st, d⟩ := by
  unfold withSlot at h
  split at h
  · exact ⟨‹_›, respond_next.1 h⟩
  · cases h

/-- All that an operation can do when it answers a next state. -/
theorem effect_of_exec {i : Instr} {s t : State} (h : exec i s = .next t) :
    ∃ w u r, (s.port s.turn).inFlight = some w ∧ Effect i s u r ∧ t = u.complete w r := by
  cases hl : i.legalOn s.turn with
  | false =>
    have h : raiseIllegal s = .next t := by
      cases i <;> simpa only [exec, execClear, execCapacity, execPut, execGet, execPeek, execCount,
        whenLegal_illegal hl] using h
    obtain ⟨w, hw, rfl⟩ := raiseIllegal_next.1 h
    exact ⟨w, _, _, hw, .illegal hl, rfl⟩
  | true =>
    cases i with
    | clear =>
      simp only [exec, execClear, whenLegal_legal hl] at h
      obtain ⟨w, hw, rfl⟩ := respond_next.1 h
      exact ⟨w, _, _, hw, .clear, rfl⟩
    | capacity =>
      simp only [exec, execCapacity, whenLegal_legal hl, zextRw_cap] at h
      obtain ⟨w, hw, rfl⟩ := respond_next.1 h
      exact ⟨w, _, _, hw, .capacity, rfl⟩
    | count =>
      simp only [exec, execCount, whenLegal_legal hl] at h
      obtain ⟨w, hw, rfl⟩ := respond_next.1 h
      exact ⟨w, _, _, hw, .count, rfl⟩
    | put b =>
      simp only [exec, execPut, whenLegal_legal hl, State.isFull, decide_eq_true_eq, State.putSlot] at h
      split at h
      · obtain ⟨w, hw, rfl⟩ := respond_next.1 h
        exact ⟨w, _, _, hw, .putFull ((legalOn_put _ _).1 hl) ‹_›, rfl⟩
      · obtain ⟨hlt, w, hw, rfl⟩ := withSlot_respond_next h
        exact ⟨w, _, _, hw, .put ((legalOn_put _ _).1 hl) ‹_› hlt, rfl⟩
    | get =>
      simp only [exec, execGet, whenLegal_legal hl, State.isEmpty, decide_eq_true_eq, State.headSlot,
        zextRw_byte] at h
      split at h
      · obtain ⟨w, hw, rfl⟩ := respond_next.1 h
        exact ⟨w, _, _, hw, .getEmpty ((legalOn_get _).1 hl) ‹_›, rfl⟩
      · obtain ⟨hlt, w, hw, rfl⟩ := withSlot_respond_next h
        exact ⟨w, _, _, hw, .get ((legalOn_get _).1 hl) ‹_› hlt, rfl⟩
    | peek =>
      simp only [exec, execPeek, whenLegal_legal hl, State.isEmpty, decide_eq_true_eq, State.headSlot,
        zextRw_byte] at h
      split at h
      · obtain ⟨w, hw, rfl⟩ := respond_next.1 h
        exact ⟨w, _, _, hw, .peekEmpty ((legalOn_peek _).1 hl) ‹_›, rfl⟩
      · obtain ⟨hlt, w, hw, rfl⟩ := withSlot_respond_next h
        exact ⟨w, _, _, hw, .peek ((legalOn_peek _).1 hl) ‹_› hlt, rfl⟩

/-! ### Decoding -/

/-- An operation decoded on a port is legal there (30 R70). -/
theorem legalOn_of_decode {p : Port} {w : Request} {i : Instr} (h : decode p w = .op i) : i.legalOn p = true := by
  unfold decode at h
  split at h
  · cases h
  · split at h
    · cases h; assumption
    · cases h

/-- What a request does to the state that accepted it, and its response: a rejected request sets the
fault mark only; a decoded one has its operation's effect, on the port where it is legal. -/
inductive RequestEffect (p : Port) (w : Request) (s : State) : State → Response → Prop where
  | illegal {reason} (h : decode p w = .illegal reason) : RequestEffect p w s s.markFault ⟨.illegal, 0⟩
  | clear (h : decode p w = .op .clear) : RequestEffect p w s (((s.setCnt 0).setRd 0).setWr 0) ⟨.ok, 0⟩
  | capacity (h : decode p w = .op .capacity) : RequestEffect p w s s ⟨.ok, s.cfg.cap⟩
  | putFull {b} (h : decode p w = .op (.put b)) (hp : p = .prod) (hf : s.cnt = s.cfg.cap) :
      RequestEffect p w s s ⟨.full, 0⟩
  | put {b} (h : decode p w = .op (.put b)) (hp : p = .prod) (hf : s.cnt ≠ s.cfg.cap) (hw : s.wr < s.cfg.cap) :
      RequestEffect p w s (((s.memWrite s.wr b).setWr (s.inc s.wr)).setCnt (s.cnt + 1)) ⟨.ok, 0⟩
  | getEmpty (h : decode p w = .op .get) (hp : p = .cons) (he : s.cnt = 0) :
      RequestEffect p w s s ⟨.empty, 0⟩
  | get (h : decode p w = .op .get) (hp : p = .cons) (he : s.cnt ≠ 0) (hr : s.rd < s.cfg.cap) :
      RequestEffect p w s ((s.setRd (s.inc s.rd)).setCnt (s.cnt - 1)) ⟨.ok, (s.memRead s.rd).toNat⟩
  | peekEmpty (h : decode p w = .op .peek) (hp : p = .cons) (he : s.cnt = 0) :
      RequestEffect p w s s ⟨.empty, 0⟩
  | peek (h : decode p w = .op .peek) (hp : p = .cons) (he : s.cnt ≠ 0) (hr : s.rd < s.cfg.cap) :
      RequestEffect p w s s ⟨.ok, (s.memRead s.rd).toNat⟩
  | count (h : decode p w = .op .count) : RequestEffect p w s s ⟨.ok, zextRw s.cfg s.cnt⟩

theorem RequestEffect.of_effect {w : Request} {i : Instr} {s u : State} {r : Response}
    (hd : decode s.turn w = .op i) (h : Effect i s u r) : RequestEffect s.turn w s u r := by
  cases h with
  | illegal hl => rw [legalOn_of_decode hd] at hl; cases hl
  | clear => exact .clear hd
  | capacity => exact .capacity hd
  | putFull ht hf => exact .putFull hd ht hf
  | put ht hf hw => exact .put hd ht hf hw
  | getEmpty ht he => exact .getEmpty hd ht he
  | get ht he hr => exact .get hd ht he hr
  | peekEmpty ht he => exact .peekEmpty hd ht he
  | peek ht he hr => exact .peek hd ht he hr
  | count => exact .count hd

theorem RequestEffect.frame {p : Port} {w : Request} {s u : State} {r : Response} (h : RequestEffect p w s u r) :
    u.cfg = s.cfg ∧ u.prod = s.prod ∧ u.cons = s.cons ∧ u.turn = s.turn ∧ u.history = s.history ∧
      u.grants = s.grants ∧ u.arbDraws = s.arbDraws ∧ u.launch = s.launch := by
  cases h <;> exact ⟨rfl, rfl, rfl, rfl, rfl, rfl, rfl, rfl⟩

theorem RequestEffect.port {p : Port} {w : Request} {s u : State} {r : Response} (h : RequestEffect p w s u r)
    (q : Port) : u.port q = s.port q := by
  obtain ⟨-, hp, hc, -⟩ := h.frame
  cases q
  · exact hp
  · exact hc

/-- All that performing port `p`'s request can do when it answers a next state (40 R84). -/
theorem performPort_next {p : Port} {s t : State} (h : performPort p s = .next t) :
    ∃ w u r, (s.port p).pending = some w ∧ RequestEffect p w (s.accept p w) u r ∧ t = u.complete w r := by
  unfold performPort at h
  cases hp : (s.port p).pending with
  | none => rw [hp] at h; cases h
  | some w =>
    rw [hp] at h
    simp only [runRequest, State.accept_turn] at h
    cases hd : decode p w with
    | illegal reason =>
      rw [hd] at h
      obtain ⟨w', hw, rfl⟩ := raiseIllegal_next.1 h
      have : w' = w := by simpa using hw.symm
      subst this
      exact ⟨w', _, _, rfl, .illegal hd, rfl⟩
    | op i =>
      rw [hd] at h
      obtain ⟨w', u, r, hw, he, rfl⟩ := effect_of_exec h
      have : w' = w := by simpa using hw.symm
      subst this
      have := RequestEffect.of_effect (w := w') (s := s.accept p w') (by simpa using hd) he
      exact ⟨w', u, r, rfl, by simpa using this, rfl⟩

/-- A pending request is performable wherever the two index registers are in range (40 R87). -/
theorem performPort_exists {p : Port} {s : State} {w : Request} (hp : (s.port p).pending = some w)
    (hr : s.rd < s.cfg.cap) (hw : s.wr < s.cfg.cap) : ∃ t, performPort p s = .next t := by
  unfold performPort
  rw [hp]
  simp only [runRequest, State.accept_turn]
  have hin : ((s.accept p w).port (s.accept p w).turn).inFlight = some w := by simp
  cases decode p w with
  | illegal reason => exact ⟨_, raiseIllegal_next.2 ⟨w, hin, rfl⟩⟩
  | op i =>
    obtain ⟨u, r, he⟩ := Effect.exists (s := s.accept p w) i (by simpa using hr) (by simpa using hw)
    exact ⟨_, exec_of_effect he hin⟩

/-- What every performed request leaves (40 R85), whatever it does. -/
theorem performPort_frame {p : Port} {s t : State} (h : performPort p s = .next t) :
    ∃ w r, (s.port p).pending = some w ∧ t.port p = ⟨(s.port p).prog, (s.port p).pi + 1, none, some r⟩ ∧
      t.port p.other = s.port p.other ∧ t.history = s.history ++ [⟨p, w, r⟩] ∧ t.cfg = s.cfg ∧ t.turn = p ∧
      t.grants = s.grants ∧ t.arbDraws = s.arbDraws ∧ t.launch = s.launch := by
  obtain ⟨w, u, r, hw, he, rfl⟩ := performPort_next h
  obtain ⟨hc, -, -, ht, hh, hg, ha, hl⟩ := he.frame
  have ht : u.turn = p := by simpa using ht
  refine ⟨w, r, hw, ?_, ?_, ?_, by simpa using hc, by simpa using ht, by simpa using hg, by simpa using ha,
    by simpa using hl⟩
  · have := u.complete_same w r
    rw [ht, he.port] at this
    simpa [PortState.answered] using this
  · have := u.complete_other w r
    rw [ht, he.port] at this
    simpa using this
  · simp [hh, ht]

/-! ### The arbiter -/

/-- The port picked has a pending request. -/
theorem State.nextPort_pending {s : State} {p : Port} (h : s.nextPort = some p) : s.isPending p = true := by
  unfold State.nextPort at h
  split at h
  · cases h
  · cases h; assumption
  · cases h; assumption
  · cases p <;> assumption

/-- None is picked only when none is pending. -/
theorem State.nextPort_none {s : State} : s.nextPort = none ↔ ∀ p, s.isPending p = false := by
  unfold State.nextPort
  constructor
  · intro h p
    split at h
    · cases p <;> assumption
    all_goals cases h
  · intro h
    simp [h .prod, h .cons]

/-- All that a step can do when it answers a next state. -/
theorem step_next {s t : State} (h : step s = .next t) :
    (s.nextPort = none ∧ t = s) ∨
      ∃ p, s.nextPort = some p ∧ performPort p s.granted = .next t := by
  unfold step at h
  cases hn : s.nextPort with
  | none => rw [hn] at h; cases h; exact .inl ⟨rfl, rfl⟩
  | some p => rw [hn] at h; exact .inr ⟨p, rfl, h⟩

/-! ### Perform orders -/

theorem performOrder_cons {p : Port} {ps : List Port} {s t : State} (h : performOrder (p :: ps) s = .next t) :
    ∃ u, performPort p s = .next u ∧ performOrder ps u = .next t := by
  unfold performOrder at h
  split at h
  · exact ⟨_, ‹_›, h⟩
  all_goals cases h

theorem performOrder_append {ps qs : List Port} {s t : State} (h : performOrder (ps ++ qs) s = .next t) :
    ∃ u, performOrder ps s = .next u ∧ performOrder qs u = .next t := by
  induction ps generalizing s with
  | nil => exact ⟨s, rfl, h⟩
  | cons p ps ih =>
    obtain ⟨u, hu, h⟩ := performOrder_cons h
    obtain ⟨v, hv, h⟩ := ih h
    exact ⟨v, by simp only [performOrder, hu, hv], h⟩

/-- A property every performed request keeps holds after every perform order. -/
theorem performOrder_keeps {P : State → Prop} (hstep : ∀ p s t, P s → performPort p s = .next t → P t)
    {ps : List Port} {s t : State} (hs : P s) (h : performOrder ps s = .next t) : P t := by
  induction ps generalizing s with
  | nil => cases h; exact hs
  | cons p ps ih =>
    obtain ⟨u, hu, h⟩ := performOrder_cons h
    exact ih (hstep p s u hs hu) h

end Sys2Proof.Machine
end

