-- ==== Sys2Proof/Laws/PerInstr.lean ====
section
/-! SUPPORT. The statements made of each operation as syntax, one lemma for each constructor. -/

namespace Sys2Proof.Laws.CanonicalWord

/-- The canonical word carries the operation's code and operand, and selects the operation
(30 R60 to R62). -/
def Statement (i : Instr) : Prop :=
  opField (encode i) = i.opcode ∧ wdataField (encode i) = i.wdata ∧ decodeOp (encode i) = some i

theorem clear : Statement .clear := by unfold Statement; decide
theorem capacity : Statement .capacity := by unfold Statement; decide
theorem put (b : Byte) : Statement (.put b) :=
  ⟨opField_encode _, wdataField_encode _, by
    unfold decodeOp; rw [opField_encode, wdataField_encode]; rfl⟩
theorem get : Statement .get := by unfold Statement; decide
theorem peek : Statement .peek := by unfold Statement; decide
theorem count : Statement .count := by unfold Statement; decide

end Sys2Proof.Laws.CanonicalWord
end

