-- ==== Sys2Proof/Laws/Perform.lean ====
section
/-! SUPPORT. A performed request told on the state before and the state after, and runs unfolded by one
step: what proofs about perform orders and runs take apart. -/

namespace Sys2Proof.Machine

/-- What performing request `w` of port `p` did to the block between `s` and `t`, and its response. -/
inductive BlockChange (p : Port) (w : Request) (s t : State) : Response → Prop where
  | illegal {reason} (hd : decode p w = .illegal reason) (hb : SameBlock s t) (hm : t.faultMark = true) :
      BlockChange p w s t ⟨.illegal, 0⟩
  | clear (hd : decode p w = .op .clear) (hb : t.buf = s.buf) (hr : t.rd = 0) (hw : t.wr = 0) (hc : t.cnt = 0)
      (hm : t.faultMark = s.faultMark) : BlockChange p w s t ⟨.ok, 0⟩
  | capacity (hd : decode p w = .op .capacity) (hb : SameBlock s t) (hm : t.faultMark = s.faultMark) :
      BlockChange p w s t ⟨.ok, s.cfg.cap⟩
  | count (hd : decode p w = .op .count) (hb : SameBlock s t) (hm : t.faultMark = s.faultMark) :
      BlockChange p w s t ⟨.ok, zextRw s.cfg s.cnt⟩
  | putFull {b} (hd : decode p w = .op (.put b)) (hp : p = .prod) (hf : s.cnt = s.cfg.cap) (hb : SameBlock s t)
      (hm : t.faultMark = s.faultMark) : BlockChange p w s t ⟨.full, 0⟩
  | put {b} (hd : decode p w = .op (.put b)) (hp : p = .prod) (hf : s.cnt ≠ s.cfg.cap) (hlt : s.wr < s.cfg.cap)
      (hb : t.buf = s.buf.write s.wr b) (hr : t.rd = s.rd) (hw : t.wr = s.inc s.wr) (hc : t.cnt = s.cnt + 1)
      (hm : t.faultMark = s.faultMark) : BlockChange p w s t ⟨.ok, 0⟩
  | readEmpty (hd : decode p w = .op .get ∨ decode p w = .op .peek) (hp : p = .cons) (he : s.cnt = 0)
      (hb : SameBlock s t) (hm : t.faultMark = s.faultMark) : BlockChange p w s t ⟨.empty, 0⟩
  | get (hd : decode p w = .op .get) (hp : p = .cons) (he : s.cnt ≠ 0) (hlt : s.rd < s.cfg.cap)
      (hb : t.buf = s.buf) (hr : t.rd = s.inc s.rd) (hw : t.wr = s.wr) (hc : t.cnt = s.cnt - 1)
      (hm : t.faultMark = s.faultMark) : BlockChange p w s t ⟨.ok, (s.memRead s.rd).toNat⟩
  | peek (hd : decode p w = .op .peek) (hp : p = .cons) (he : s.cnt ≠ 0) (hlt : s.rd < s.cfg.cap)
      (hb : SameBlock s t) (hm : t.faultMark = s.faultMark) : BlockChange p w s t ⟨.ok, (s.memRead s.rd).toNat⟩

/-- The effect on the state that accepted the request, told on the state before it. -/
theorem RequestEffect.blockChange {p : Port} {w : Request} {s u : State} {r : Response}
    (h : RequestEffect p w (s.accept p w) u r) : BlockChange p w s (u.complete w r) r := by
  have same : ∀ st d, SameBlock s ((s.accept p w).complete w ⟨st, d⟩) :=
    fun _ _ => ⟨by simp, by simp, by simp, by simp⟩
  cases h with
  | illegal hd => exact .illegal hd ⟨by simp, by simp, by simp, by simp⟩ (by simp)
  | clear hd => exact .clear hd (by simp) (by simp) (by simp) (by simp) (by simp)
  | capacity hd => simpa using BlockChange.capacity hd (same .ok s.cfg.cap) (by simp)
  | count hd => simpa using BlockChange.count hd (same .ok (zextRw s.cfg s.cnt)) (by simp)
  | putFull hd hp hf => exact .putFull hd hp (by simpa using hf) (same _ _) (by simp)
  | put hd hp hf hlt =>
    exact .put hd hp (by simpa using hf) (by simpa using hlt) (by simp) (by simp) (by simp) (by simp) (by simp)
  | getEmpty hd hp he => exact .readEmpty (.inl hd) hp (by simpa using he) (same _ _) (by simp)
  | peekEmpty hd hp he => exact .readEmpty (.inr hd) hp (by simpa using he) (same _ _) (by simp)
  | get hd hp he hlt =>
    simpa using BlockChange.get (t := (((s.accept p w).setRd (s.inc s.rd)).setCnt (s.cnt - 1)).complete w
      ⟨.ok, (s.memRead s.rd).toNat⟩) hd hp (by simpa using he) (by simpa using hlt) (by simp) (by simp) (by simp)
      (by simp) (by simp)
  | peek hd hp he hlt =>
    simpa using BlockChange.peek hd hp (by simpa using he) (by simpa using hlt)
      (same .ok (s.memRead s.rd).toNat) (by simp)

/-- All that performing port `p`'s request can do when it answers a next state: the request answered,
recorded and counted (40 R85), and the block changed as its operation says. -/
theorem performPort_cases {p : Port} {s t : State} (h : performPort p s = .next t) :
    ∃ w r, (s.port p).pending = some w ∧ AnsweredWith (s.accept p w) t w r ∧ BlockChange p w s t r := by
  obtain ⟨w, u, r, hw, he, rfl⟩ := performPort_next h
  refine ⟨w, r, hw, ?_, he.blockChange⟩
  obtain ⟨hc, -, -, ht, hh, hg, ha, hl⟩ := he.frame
  have h1 := u.complete_same w r
  have h2 := u.complete_other w r
  rw [ht, he.port] at h1 h2
  exact ⟨by simpa [PortState.answered] using h1, by simpa using h2, by simp [hh, ht], by simpa using hc,
    by simpa using ht, by simpa using hg, by simpa using ha, by simpa using hl⟩

/-- A run unfolded by its first step. -/
theorem State.runSteps_succ (s : State) (n : Nat) :
    s.runSteps (n + 1) =
      match step s with
      | .next t => t.runSteps n
      | .fault f => .fault f
      | .refused f => .refused f := by
  show Host.Core.run core (n + 1) s = _
  cases h : step s with
  | next t =>
    have h' : core.step s = .next t := h
    simp only [Host.Core.run, h']; rfl
  | fault f =>
    have h' : core.step s = .fault f := h
    simp only [Host.Core.run, h']; rfl
  | refused f =>
    have h' : core.step s = .refused f := h
    simp only [Host.Core.run, h']; rfl

@[simp] theorem State.runSteps_zero (s : State) : s.runSteps 0 = .next s := rfl

end Sys2Proof.Machine
end

