-- ==== Sys2Proof/Tests/Slice0.lean ====
section
/-! SUPPORT. The model's own tests: the checks of WellFormed, decoding and packing against the spec's
words (95), and one step of each operation against the spec's vectors (95). -/

namespace Sys2Proof.Tests
open Sys2Proof.Machine

/-! ## Helpers -/

/-- A configuration of capacity `cap`. -/
def conf (cap : Nat) (h : 1 ≤ cap) : Config := ⟨cap, h, Role.receive, .sharedClock, 0⟩

/-- A state with CAP = `cap`, the given indices, count and storage, and the two clients' requests. -/
def st (cap : Nat) (h : 1 ≤ cap) (rd wr cnt : Nat) (buf : Memory) (pp cp : List Request) : State :=
  { launched (conf cap h) 0 pp cp with rd := rd, wr := wr, cnt := cnt, buf := buf }

/-- The next state an outcome answers (the reset state for none). -/
def nextOf : Result → State
  | .next s => s
  | .fault _ => State.reset
  | .refused _ => State.reset

/-- The outcome is a next state with the given read index, write index and count, the response given
to port `p`, and the byte of slot `i`. -/
def gives (o : Result) (rd wr cnt : Nat) (p : Port) (r : Response) (i : Nat) (b : Byte) : Bool :=
  match o with
  | .next t => decide (t.rd = rd) && decide (t.wr = wr) && decide (t.cnt = cnt) &&
      decide ((t.port p).resp = some r) && decide (t.memRead i = b)
  | .fault _ => false
  | .refused _ => false

/-- The outcome is a next state with the fault mark set. -/
def marks (o : Result) : Bool :=
  match o with
  | .next t => t.faultMark
  | .fault _ => false
  | .refused _ => false

/-- A full buffer of four (95 CL1, PU3, GE3). -/
def full4 (pp cp : List Request) : State :=
  st 4 (by decide) 2 2 4 [(0, 0x0A#8), (1, 0x0B#8), (2, 0x0C#8), (3, 0x0D#8)] pp cp

/-- A buffer of four with two bytes across the wrap (95 GE2). -/
def two4 (pp cp : List Request) : State := st 4 (by decide) 3 1 2 [(0, 0x07#8), (3, 0xFF#8)] pp cp

/-- A fresh buffer of four. -/
def fresh4 (pp cp : List Request) : State := st 4 (by decide) 0 0 0 [] pp cp

/-! ## WellFormed: an ill-formed term for each check -/

theorem test_put_ill_formed_on_cons : (Instr.put 0x12#8).wellFormedOn .cons = false := by decide
theorem test_get_ill_formed_on_prod : Instr.get.wellFormedOn .prod = false := by decide
theorem test_peek_ill_formed_on_prod : Instr.peek.wellFormedOn .prod = false := by decide
theorem test_reserved_request_ill_formed : Request.wellFormedOn .prod 0x700#11 = false := by decide
theorem test_list_with_illegal_request_ill_formed :
    requestsWellFormed .cons [0x400#11, 0x3AA#11] = false := by decide
theorem test_list_of_legal_requests_well_formed :
    requestsWellFormed .cons [0x400#11, 0x6AB#11] = true := by decide

/-! ## Decoding and encoding: words written out from 30 R62 (95 section 2.1) -/

theorem test_decode_clear : decode .prod 0b00100000000#11 = .op .clear := by decide
theorem test_decode_clear_ignored_bits : decode .cons 0b00111111111#11 = .op .clear := by decide
theorem test_decode_capacity : decode .prod 0b01010101011#11 = .op .capacity := by decide
theorem test_decode_put : decode .prod 0b01110000001#11 = .op (.put 0b10000001#8) := by decide
theorem test_decode_put_on_cons : decode .cons 0b01111111111#11 = .illegal .wrongPort := by decide
theorem test_decode_get : decode .cons 0b10000000000#11 = .op .get := by decide
theorem test_decode_get_on_prod : decode .prod 0b10000000000#11 = .illegal .wrongPort := by decide
theorem test_decode_peek : decode .cons 0b10111000011#11 = .op .peek := by decide
theorem test_decode_peek_on_prod : decode .prod 0b10100000000#11 = .illegal .wrongPort := by decide
theorem test_decode_count : decode .cons 0b11011111111#11 = .op .count := by decide
theorem test_decode_reserved_zero : decode .cons 0b00011111111#11 = .illegal .reservedOpcode := by decide
theorem test_decode_reserved_seven : decode .prod 0b11100000000#11 = .illegal .reservedOpcode := by decide
theorem test_encode_canonical :
    encode .clear = 0x100#11 ∧ encode .capacity = 0x200#11 ∧ encode (.put 0x41#8) = 0x341#11 ∧
      encode .get = 0x400#11 ∧ encode .peek = 0x500#11 ∧ encode .count = 0x600#11 := by decide
theorem test_table_word_put : decodeTableWord 16 0x341 = some (.put 0x41#8) := by decide
theorem test_table_word_get : decodeTableWord 16 0x4FF = some .get := by decide
theorem test_table_word_reserved : decodeTableWord 16 0x7FF = none := by decide
theorem test_table_word_too_long : decodeTableWord 16 0x900 = none := by decide

/-- No two rows of the opcode map overlap: they share a mask and differ in their bits (30 R62). -/
theorem test_opcode_rows_disjoint :
    opcodeRows.Pairwise (fun r r' => r.mask = r'.mask ∧ r.bits ≠ r'.bits) := by decide

/-! ## Responses (95 section 2.2) -/

theorem test_pack_byte : ((Response.pack (conf 4 (by decide)) ⟨.ok, 0x41⟩).toNat = 0x041) := by decide
theorem test_pack_empty : ((Response.pack (conf 4 (by decide)) ⟨.empty, 0⟩).toNat = 0x100) := by decide
theorem test_pack_capacity_256 : ((Response.pack (conf 256 (by decide)) ⟨.ok, 256⟩).toNat = 0x100) := by decide
theorem test_pack_illegal_256 : ((Response.pack (conf 256 (by decide)) ⟨.illegal, 0⟩).toNat = 0x600) := by decide
theorem test_rw : (conf 255 (by decide)).rw = 8 ∧ (conf 256 (by decide)).rw = 9 := by decide
theorem test_widened_empty : Response.widened ⟨.empty, 0⟩ = some (-1) := by decide

/-! ## One step of each operation (95 sections 2.3 to 2.9) -/

/-- CL1: CLEAR of a full buffer keeps the bytes. -/
theorem test_clear_full :
    gives (performPort .prod (full4 [0x100#11] [])) 0 0 0 .prod ⟨.ok, 0⟩ 2 0x0C#8 = true := by decide
/-- CL2: CLEAR of an empty buffer zeroes both indices; `wdata` is ignored. -/
theorem test_clear_empty :
    gives (performPort .cons (st 4 (by decide) 3 3 0 [(0, 0x01#8)] [] [0x1FF#11])) 0 0 0 .cons ⟨.ok, 0⟩ 0 0x01#8 = true := by
  decide
/-- CA4: CAPACITY of 256. -/
theorem test_capacity_256 :
    gives (performPort .cons (st 256 (by decide) 0 1 1 [(0, 0x05#8)] [] [0x200#11])) 0 1 1 .cons ⟨.ok, 256⟩ 0 0x05#8 = true := by
  decide
/-- PU4: PUT wraps the write index. -/
theorem test_put_wraps :
    gives (performPort .prod (st 4 (by decide) 0 3 3 [(0, 0x01#8), (1, 0x02#8), (2, 0x03#8)] [0x341#11] []))
      0 0 4 .prod ⟨.ok, 0⟩ 3 0x41#8 = true := by decide
/-- PU3: PUT on a full buffer. -/
theorem test_put_full :
    gives (performPort .prod (full4 [0x355#11] [])) 2 2 4 .prod ⟨.full, 0⟩ 2 0x0C#8 = true := by decide
/-- GE2: GET wraps the read index, and 0xFF is an ordinary byte. -/
theorem test_get_wraps :
    gives (performPort .cons (two4 [] [0x400#11])) 0 1 1 .cons ⟨.ok, 0xFF⟩ 3 0xFF#8 = true := by decide
/-- GE5: a stale byte is not returned. -/
theorem test_get_empty :
    gives (performPort .cons (st 4 (by decide) 1 1 0 [(1, 0x77#8)] [] [0x400#11])) 1 1 0 .cons ⟨.empty, 0⟩ 1 0x77#8 = true := by
  decide
/-- PE4: the head is the slot of the read index. -/
theorem test_peek_head :
    gives (performPort .cons (st 2 (by decide) 1 1 2 [(0, 0x02#8), (1, 0x01#8)] [] [0x500#11]))
      1 1 2 .cons ⟨.ok, 1⟩ 0 0x02#8 = true := by decide
/-- PE1: PEEK on an empty buffer. -/
theorem test_peek_empty :
    gives (performPort .cons (st 4 (by decide) 0 0 0 [(0, 0x01#8)] [] [0x500#11])) 0 0 0 .cons ⟨.empty, 0⟩ 0 0x01#8 = true := by
  decide
/-- CO4: COUNT of 300. -/
theorem test_count_300 :
    gives (performPort .prod (st 300 (by decide) 0 0 300 [(0, 0x09#8)] [0x600#11] [])) 0 0 300 .prod ⟨.ok, 300⟩ 0 0x09#8 = true := by
  decide
/-- PU8: PUT on CONS is ILLEGAL and sets the fault mark, though the buffer is full (IL4's priority). -/
theorem test_put_on_cons :
    gives (performPort .cons (full4 [] [0x312#11])) 2 2 4 .cons ⟨.illegal, 0⟩ 2 0x0C#8 = true ∧
      marks (performPort .cons (full4 [] [0x312#11])) = true := by decide
/-- IL1: a reserved opcode. -/
theorem test_reserved_opcode : marks (performPort .prod (full4 [0x000#11] [])) = true := by decide

/-! ## A step of the machine -/

theorem test_fetch_word_runs_put :
    gives (step (State.reset.withFetchWord 16 0x341)) 0 1 1 .prod ⟨.ok, 0⟩ 0 0x41#8 = true := by decide
theorem test_fetch_word_runs_get :
    (nextOf (step (State.reset.withFetchWord 16 0x400))).cons.resp = some ⟨.empty, 0⟩ := by decide
/-- TP1b: both ports pending on a full buffer, the producer chosen first. -/
theorem test_step_chosen_port :
    (nextOf (step ((full4 [0x399#11] [0x400#11]).withGrants [.prod]))).prod.resp = some ⟨.full, 0⟩ := by decide
/-- TP1a: the same, the consumer chosen first. -/
theorem test_step_other_port :
    (nextOf (step ((full4 [0x399#11] [0x400#11]).withGrants [.cons]))).cons.resp = some ⟨.ok, 0x0C⟩ := by decide

/-! ## The notation (30 R71) -/

/-- `P: PUT 0x41 -> OK`. -/
theorem test_parse_put :
    parseLine ['P', ':', ' ', 'P', 'U', 'T', ' ', '0', 'x', '4', '1', ' ', '-', '>', ' ', 'O', 'K'] =
      some ⟨.prod, .op .put (some 0x41#8) (some (.ok none))⟩ := by decide
/-- `C: .word 0x3AA`. -/
theorem test_parse_word :
    parseLine ['C', ':', ' ', '.', 'w', 'o', 'r', 'd', ' ', '0', 'x', '3', 'A', 'A'] =
      some ⟨.cons, .word 0x3AA#11⟩ := by decide
/-- A PUT without its byte is no line. -/
theorem test_parse_put_needs_byte : parseLine ['P', ':', ' ', 'P', 'U', 'T'] = none := by decide
/-- `C: PUT 1` is refused: the mnemonic is not legal on its port. -/
theorem test_assemble_wrong_port : (AsmLine.mk .cons (.op .put (some 1#8) none)).assemble = none := by decide
theorem test_assemble_put : (AsmLine.mk .prod (.op .put (some 50#8) none)).assemble = some 0x332#11 := by decide

end Sys2Proof.Tests
end

