-- ==== Sys2Proof/Tests/Witnesses.lean ====
section
/-! SUPPORT. For every statement with hypotheses, a concrete state and operands that meet all of them
together, at a boundary of each clause; none of it proves a statement. -/

namespace Sys2Proof.Tests
open Sys2Proof.Machine

/-! ## States the witnesses share -/

theorem full4_data : ((full4 [] []).cnt ≤ (full4 [] []).cfg.cap ∧ (full4 [] []).rd < (full4 [] []).cfg.cap ∧
      (full4 [] []).wr < (full4 [] []).cfg.cap) ∧
    (full4 [] []).wr = ((full4 [] []).rd + (full4 [] []).cnt) % (full4 [] []).cfg.cap ∧ (full4 [] []).buf.wf = true ∧
    (full4 [] []).buf.inRange (full4 [] []).cfg.cap = true ∧
    ∀ i ∈ (full4 [] []).liveWindow, ((full4 [] []).buf.read? i).isSome = true := by decide
theorem full4_inv (pp cp : List Request) : (full4 pp cp).Inv :=
  ⟨⟨full4_data.1.1, full4_data.1.2.1, full4_data.1.2.2⟩, full4_data.2.1, full4_data.2.2.1, full4_data.2.2.2.1,
    full4_data.2.2.2.2, fun p => by cases p <;> exact Nat.zero_le _, fun p => by cases p <;> rfl⟩

theorem two4_data : ((two4 [] []).cnt ≤ (two4 [] []).cfg.cap ∧ (two4 [] []).rd < (two4 [] []).cfg.cap ∧
      (two4 [] []).wr < (two4 [] []).cfg.cap) ∧
    (two4 [] []).wr = ((two4 [] []).rd + (two4 [] []).cnt) % (two4 [] []).cfg.cap ∧ (two4 [] []).buf.wf = true ∧
    (two4 [] []).buf.inRange (two4 [] []).cfg.cap = true ∧
    ∀ i ∈ (two4 [] []).liveWindow, ((two4 [] []).buf.read? i).isSome = true := by decide
theorem two4_inv (pp cp : List Request) : (two4 pp cp).Inv :=
  ⟨⟨two4_data.1.1, two4_data.1.2.1, two4_data.1.2.2⟩, two4_data.2.1, two4_data.2.2.1, two4_data.2.2.2.1,
    two4_data.2.2.2.2, fun p => by cases p <;> exact Nat.zero_le _, fun p => by cases p <;> rfl⟩

theorem fresh4_data : ((fresh4 [] []).cnt ≤ (fresh4 [] []).cfg.cap ∧ (fresh4 [] []).rd < (fresh4 [] []).cfg.cap ∧
      (fresh4 [] []).wr < (fresh4 [] []).cfg.cap) ∧
    (fresh4 [] []).wr = ((fresh4 [] []).rd + (fresh4 [] []).cnt) % (fresh4 [] []).cfg.cap ∧ (fresh4 [] []).buf.wf = true ∧
    (fresh4 [] []).buf.inRange (fresh4 [] []).cfg.cap = true ∧
    ∀ i ∈ (fresh4 [] []).liveWindow, ((fresh4 [] []).buf.read? i).isSome = true := by decide
theorem fresh4_inv (pp cp : List Request) : (fresh4 pp cp).Inv :=
  ⟨⟨fresh4_data.1.1, fresh4_data.1.2.1, fresh4_data.1.2.2⟩, fresh4_data.2.1, fresh4_data.2.2.1, fresh4_data.2.2.2.1,
    fresh4_data.2.2.2.2, fun p => by cases p <;> exact Nat.zero_le _, fun p => by cases p <;> rfl⟩

/-- The state in which port `p`'s request `w` is being performed. -/
def serving (s : State) (p : Port) (w : Request) : State := s.accept p w

/-! ## Encoding and response -/

theorem witness_encode : decode .prod 0x37F#11 = .op (.put 0x7F#8) := by decide
theorem witness_table : ∃ r ∈ opcodeRows, r.holds 0x6FF#11 = true :=
  ⟨⟨"COUNT", 0x700#11, 0x600#11⟩, by decide, by decide⟩
theorem witness_pack : (255 < 2 ^ (conf 255 (by decide)).rw) ∧ 256 < 2 ^ (conf 256 (by decide)).rw := by decide
theorem witness_bounds : (full4 [] []).Bounds := (full4_inv [] []).bounds

/-! ## The operations -/

theorem witness_in_flight_prod :
    ((serving (full4 [] []) .prod 0x100#11).port (serving (full4 [] []) .prod 0x100#11).turn).inFlight = some 0x100#11 := by
  decide
/-- PUT at the last slot of a buffer with one slot left. -/
theorem witness_put : ∃ s : State, (s.port s.turn).inFlight = some 0x341#11 ∧ s.turn = .prod ∧ s.cnt ≠ s.cfg.cap ∧
    s.putSlot < s.cfg.cap :=
  ⟨serving (st 4 (by decide) 0 3 3 [(0, 1#8), (1, 2#8), (2, 3#8)] [] []) .prod 0x341#11, by decide, by decide, by decide,
    by decide⟩
theorem witness_put_full : ∃ s : State, (s.port s.turn).inFlight = some 0x341#11 ∧ s.turn = .prod ∧ s.cnt = s.cfg.cap :=
  ⟨serving (full4 [] []) .prod 0x341#11, by decide, by decide, by decide⟩
/-- GET and PEEK of the only byte, at the last slot. -/
theorem witness_get_and_peek : ∃ s : State, (s.port s.turn).inFlight = some 0x400#11 ∧ s.turn = .cons ∧ s.cnt ≠ 0 ∧
    s.headSlot < s.cfg.cap ∧ s.cnt ≤ s.cfg.cap :=
  ⟨serving (st 4 (by decide) 3 0 1 [(3, 0x2A#8)] [] []) .cons 0x400#11, by decide, by decide, by decide, by decide,
    by decide⟩
theorem witness_get_and_peek_empty : ∃ s : State, (s.port s.turn).inFlight = some 0x500#11 ∧ s.turn = .cons ∧ s.cnt = 0 :=
  ⟨serving (fresh4 [] []) .cons 0x500#11, by decide, by decide, by decide⟩
theorem witness_count : ∃ s : State, (s.port s.turn).inFlight = some 0x600#11 ∧ s.cnt ≤ s.cfg.cap :=
  ⟨serving (full4 [] []) .prod 0x600#11, by decide, by decide⟩
theorem witness_wrong_port_put : ∃ s : State, (s.port s.turn).inFlight = some 0x312#11 ∧ s.turn = .cons :=
  ⟨serving (full4 [] []) .cons 0x312#11, by decide, by decide⟩
theorem witness_wrong_port_read : ∃ s : State, (s.port s.turn).inFlight = some 0x400#11 ∧ s.turn = .prod :=
  ⟨serving (two4 [] []) .prod 0x400#11, by decide, by decide⟩
theorem witness_frame_put :
    exec (.put 0x41#8) (serving (two4 [] []) .prod 0x341#11) =
      .next (nextOf (exec (.put 0x41#8) (serving (two4 [] []) .prod 0x341#11))) := rfl
theorem witness_frame_put_full :
    (serving (full4 [] []) .prod 0x341#11).isFull = true ∧
    exec (.put 0x41#8) (serving (full4 [] []) .prod 0x341#11) =
      .next (nextOf (exec (.put 0x41#8) (serving (full4 [] []) .prod 0x341#11))) := ⟨by decide, rfl⟩
theorem witness_frame_others :
    (∀ i ∈ [Instr.clear, .capacity, .get, .peek, .count],
      ∃ t, exec i (serving (two4 [] []) .cons 0x100#11) = .next t) := by
  intro i hi
  simp only [List.mem_cons, List.not_mem_nil, or_false] at hi
  rcases hi with rfl | rfl | rfl | rfl | rfl
  · exact ⟨nextOf (exec .clear (serving (two4 [] []) .cons 0x100#11)), rfl⟩
  · exact ⟨nextOf (exec .capacity (serving (two4 [] []) .cons 0x100#11)), rfl⟩
  · exact ⟨nextOf (exec .get (serving (two4 [] []) .cons 0x100#11)), rfl⟩
  · exact ⟨nextOf (exec .peek (serving (two4 [] []) .cons 0x100#11)), rfl⟩
  · exact ⟨nextOf (exec .count (serving (two4 [] []) .cons 0x100#11)), rfl⟩
theorem witness_inc : 3 < (two4 [] []).cfg.cap ∧ 0 < (st 1 (by decide) 0 0 0 [] [] []).cfg.cap ∧
    (st 1 (by decide) 0 0 0 [] [] []).cfg.cap = 1 := by decide

/-! ## Rejection, priority, outputs -/

/-- A reserved opcode and a wrong port, each pending and performable, and a mark already set. -/
theorem witness_illegal :
    ((full4 [0x700#11] []).port .prod).pending = some 0x700#11 ∧ decode .prod 0x700#11 = .illegal .reservedOpcode ∧
    ((full4 [] [0x312#11]).port .cons).pending = some 0x312#11 ∧ decode .cons 0x312#11 = .illegal .wrongPort ∧
    (full4 [0x700#11] []).markFault.faultMark = true ∧
    performPort .prod (full4 [0x700#11] []).markFault =
      .next (nextOf (performPort .prod (full4 [0x700#11] []).markFault)) :=
  ⟨rfl, by decide, rfl, by decide, rfl, rfl⟩
theorem witness_reserved : opField 0x0FF#11 = 0b000#3 ∧ opField 0x700#11 = 0b111#3 := by decide
theorem witness_wrong_port_op :
    decodeOp 0x3FF#11 = some (.put 0xFF#8) ∧ (Instr.put 0xFF#8).legalOn .cons = false ∧
    decodeOp 0x400#11 = some .get ∧ Instr.get.legalOn .prod = false := by decide
theorem witness_perform_full :
    performPort .prod (full4 [0x355#11] []) = .next (nextOf (performPort .prod (full4 [0x355#11] []))) := rfl
theorem witness_perform_empty :
    performPort .cons (fresh4 [] [0x500#11]) = .next (nextOf (performPort .cons (fresh4 [] [0x500#11]))) := rfl
theorem witness_exclude : (full4 [] []).cnt ≤ (full4 [] []).cfg.cap ∧
    (st 1 (by decide) 0 0 1 [(0, 0x80#8)] [] []).cnt ≤ (st 1 (by decide) 0 0 1 [(0, 0x80#8)] [] []).cfg.cap ∧
    (st 1 (by decide) 0 0 1 [(0, 0x80#8)] [] []).cfg.cap = 1 := by decide
theorem witness_output_count :
    (full4 [] []).cnt ≤ (full4 [] []).cfg.cap ∧
    exec .count (serving (full4 [] []) .prod 0x600#11) =
      .next (nextOf (exec .count (serving (full4 [] []) .prod 0x600#11))) := ⟨by decide, rfl⟩
theorem witness_output_change :
    performPort .prod (fresh4 [0x341#11] []) = .next (nextOf (performPort .prod (fresh4 [0x341#11] []))) ∧
    (nextOf (performPort .prod (fresh4 [0x341#11] []))).emptyO ≠ (fresh4 [0x341#11] []).emptyO := ⟨rfl, by decide⟩

/-! ## Launch, steps, the arbiter -/

theorem witness_launch : 1 ≤ 1 ∧ (nextOf (performPort .prod (fresh4 [0x600#11] []))).history ≠ [] := by decide
theorem witness_step_decoded :
    (fresh4 [0x341#11] []).nextPort = some .prod ∧ ((fresh4 [0x341#11] []).port .prod).pending = some 0x341#11 ∧
    decode .prod 0x341#11 = .op (.put 0x41#8) := by decide
theorem witness_step_rejected :
    (fresh4 [] [0x341#11]).nextPort = some .cons ∧ ((fresh4 [] [0x341#11]).port .cons).pending = some 0x341#11 ∧
    decode .cons 0x341#11 = .illegal .wrongPort := by decide
theorem witness_idle : ∀ p : Port, State.reset.isPending p = false := fun p => by cases p <;> decide
theorem witness_contest :
    (full4 [0x399#11] [0x400#11]).isPending .prod = true ∧ (full4 [0x399#11] [0x400#11]).isPending .cons = true ∧
      (full4 [0x399#11] [0x400#11]).grants = [] := by decide
theorem witness_pending : (full4 [] [0x400#11]).Bounds ∧ (full4 [] [0x400#11]).isPending .cons = true :=
  ⟨(full4_inv _ _).bounds, by decide⟩

/-! ## Invariants and runs -/

theorem witness_step_inv :
    (two4 [] [0x400#11]).Inv ∧ step (two4 [] [0x400#11]) = .next (nextOf (step (two4 [] [0x400#11]))) :=
  ⟨two4_inv _ _, rfl⟩
theorem witness_perform_inv :
    (two4 [] [0x400#11]).Inv ∧ performPort .cons (two4 [] [0x400#11]) =
      .next (nextOf (performPort .cons (two4 [] [0x400#11]))) := ⟨two4_inv _ _, rfl⟩
/-- The ring relation where the indices are equal: empty, and full. -/
theorem witness_ring : (fresh4 [] []).rd = (fresh4 [] []).wr ∧ (fresh4 [] []).cnt = 0 ∧
    (full4 [] []).rd = (full4 [] []).wr ∧ (full4 [] []).cnt = (full4 [] []).cfg.cap := by decide
theorem witness_history :
    (launched (conf 4 (by decide)) 0 [0x341#11] []).HistoryInv ∧
    step (launched (conf 4 (by decide)) 0 [0x341#11] []) =
      .next (nextOf (step (launched (conf 4 (by decide)) 0 [0x341#11] []))) :=
  ⟨⟨fun p => by cases p <;> rfl, rfl, fun p => by cases p <;> rfl⟩, rfl⟩
theorem witness_legal_clients :
    (fresh4 [0x341#11] [0x400#11]).wellFormedClients = true ∧ (fresh4 [0x341#11] [0x400#11]).clean = true ∧
    ((fresh4 [0x341#11] [0x400#11]).withGrants [.prod]).runSteps 2 =
      .next (nextOf (((fresh4 [0x341#11] [0x400#11]).withGrants [.prod]).runSteps 2)) := ⟨by decide, by decide, rfl⟩
/-- A stretch with a PUT and a GET and no CLEAR. -/
theorem witness_stretch :
    performOrder [.prod, .cons] (two4 [0x341#11] [0x400#11]) =
      .next (nextOf (performOrder [.prod, .cons] (two4 [0x341#11] [0x400#11]))) ∧
    (∀ e ∈ eventsSince (two4 [0x341#11] [0x400#11])
      (nextOf (performOrder [.prod, .cons] (two4 [0x341#11] [0x400#11]))), e.isClear = false) := ⟨rfl, by decide⟩
theorem witness_from_launch :
    performOrder [.prod, .cons] (launched (conf 4 (by decide)) 0 [0x341#11] [0x400#11]) =
      .next (nextOf (performOrder [.prod, .cons] (launched (conf 4 (by decide)) 0 [0x341#11] [0x400#11]))) := rfl

/-- Two states that differ in a stale byte alone. -/
theorem witness_stale :
    SameButStale (st 4 (by decide) 0 1 1 [(0, 0x05#8)] [] [0x400#11])
      (st 4 (by decide) 0 1 1 [(0, 0x05#8), (2, 0x77#8)] [] [0x400#11]) ∧
    performOrder [.cons] (st 4 (by decide) 0 1 1 [(0, 0x05#8)] [] [0x400#11]) =
      .next (nextOf (performOrder [.cons] (st 4 (by decide) 0 1 1 [(0, 0x05#8)] [] [0x400#11]))) :=
  ⟨⟨by decide, rfl, rfl, rfl, rfl, rfl, rfl, rfl, rfl⟩, rfl⟩
theorem witness_stale_inv :
    (st 4 (by decide) 0 1 1 [(0, 0x05#8)] [] [0x400#11]).Inv ∧
    (st 4 (by decide) 0 1 1 [(0, 0x05#8), (2, 0x77#8)] [] [0x400#11]).Inv :=
  ⟨⟨⟨by decide, by decide, by decide⟩, by decide, by decide, by decide, by decide,
      fun p => by cases p <;> decide, fun p => by cases p <;> rfl⟩,
    ⟨⟨by decide, by decide, by decide⟩, by decide, by decide, by decide, by decide,
      fun p => by cases p <;> decide, fun p => by cases p <;> rfl⟩⟩
theorem witness_clear_then_launch :
    (full4 [0x100#11] []).Inv ∧ (full4 [0x100#11] []).pendingOp .prod .clear ∧
    performPort .prod (full4 [0x100#11] []) = .next (nextOf (performPort .prod (full4 [0x100#11] []))) ∧
    performOrder [.cons] (launchedOver (nextOf (performPort .prod (full4 [0x100#11] []))) [] [0x400#11]) =
      .next (nextOf (performOrder [.cons]
        (launchedOver (nextOf (performPort .prod (full4 [0x100#11] []))) [] [0x400#11]))) :=
  ⟨full4_inv _ _, ⟨_, rfl, by decide⟩, rfl, rfl⟩
theorem witness_run :
    (full4 [0x399#11] []).runSteps 1 = .next (nextOf ((full4 [0x399#11] []).runSteps 1)) ∧
      (full4 [0x399#11] []).remaining = 1 := ⟨rfl, by decide⟩

/-! ## Hazards -/

/-- The state after the first request of each witness below. -/
def after (p : Port) (s : State) : State := nextOf (performPort p s)
/-- The state after a perform order. -/
def afterOrder (o : List Port) (s : State) : State := nextOf (performOrder o s)

theorem witness_peek_then_get :
    (two4 [0x341#11] [0x500#11, 0x400#11]).Inv ∧ (two4 [0x341#11] [0x500#11, 0x400#11]).pendingOp .cons .peek ∧
    performPort .cons (two4 [0x341#11] [0x500#11, 0x400#11]) = .next (after .cons (two4 [0x341#11] [0x500#11, 0x400#11])) ∧
    (after .cons (two4 [0x341#11] [0x500#11, 0x400#11])).cons.resp = some ⟨.ok, 0xFF⟩ ∧
    performOrder [.prod] (after .cons (two4 [0x341#11] [0x500#11, 0x400#11])) =
      .next (afterOrder [.prod] (after .cons (two4 [0x341#11] [0x500#11, 0x400#11]))) ∧
    (∀ e ∈ eventsSince (after .cons (two4 [0x341#11] [0x500#11, 0x400#11]))
      (afterOrder [.prod] (after .cons (two4 [0x341#11] [0x500#11, 0x400#11]))), e.isClear = false) ∧
    (afterOrder [.prod] (after .cons (two4 [0x341#11] [0x500#11, 0x400#11]))).pendingOp .cons .get ∧
    performPort .cons (afterOrder [.prod] (after .cons (two4 [0x341#11] [0x500#11, 0x400#11]))) =
      .next (after .cons (afterOrder [.prod] (after .cons (two4 [0x341#11] [0x500#11, 0x400#11])))) :=
  ⟨two4_inv _ _, ⟨_, rfl, by decide⟩, rfl, by decide, rfl, by decide, ⟨_, rfl, by decide⟩, rfl⟩

/-- TP2: COUNT answers 3 of 4, the consumer acts, then PUT. -/
theorem witness_producer :
    (st 4 (by decide) 1 0 3 [(1, 1#8), (2, 2#8), (3, 3#8)] [0x600#11, 0x333#11] [0x400#11]).Inv ∧
    (st 4 (by decide) 1 0 3 [(1, 1#8), (2, 2#8), (3, 3#8)] [0x600#11, 0x333#11] [0x400#11]).pendingOp .prod .count ∧
    (after .prod (st 4 (by decide) 1 0 3 [(1, 1#8), (2, 2#8), (3, 3#8)] [0x600#11, 0x333#11] [0x400#11])).prod.resp = some ⟨.ok, 3⟩ ∧
    performOrder [.cons] (after .prod (st 4 (by decide) 1 0 3 [(1, 1#8), (2, 2#8), (3, 3#8)] [0x600#11, 0x333#11] [0x400#11])) =
      .next (afterOrder [.cons] (after .prod (st 4 (by decide) 1 0 3 [(1, 1#8), (2, 2#8), (3, 3#8)] [0x600#11, 0x333#11] [0x400#11]))) ∧
    (∀ e ∈ eventsSince (after .prod (st 4 (by decide) 1 0 3 [(1, 1#8), (2, 2#8), (3, 3#8)] [0x600#11, 0x333#11] [0x400#11]))
      (afterOrder [.cons] (after .prod (st 4 (by decide) 1 0 3 [(1, 1#8), (2, 2#8), (3, 3#8)] [0x600#11, 0x333#11] [0x400#11]))), e.isPut = false) ∧
    (afterOrder [.cons] (after .prod (st 4 (by decide) 1 0 3 [(1, 1#8), (2, 2#8), (3, 3#8)] [0x600#11, 0x333#11] [0x400#11]))).pendingOp .prod (.put 0x33#8) :=
  ⟨⟨⟨by decide, by decide, by decide⟩, by decide, by decide, by decide, by decide, fun p => by cases p <;> decide,
      fun p => by cases p <;> rfl⟩,
    ⟨_, rfl, by decide⟩, by decide, rfl, by decide, ⟨_, rfl, by decide⟩⟩

/-- COUNT answers 2, the producer PUTs, then GET. -/
theorem witness_consumer :
    (two4 [0x341#11] [0x600#11, 0x400#11]).Inv ∧ (two4 [0x341#11] [0x600#11, 0x400#11]).pendingOp .cons .count ∧
    (after .cons (two4 [0x341#11] [0x600#11, 0x400#11])).cons.resp = some ⟨.ok, 2⟩ ∧
    performOrder [.prod] (after .cons (two4 [0x341#11] [0x600#11, 0x400#11])) =
      .next (afterOrder [.prod] (after .cons (two4 [0x341#11] [0x600#11, 0x400#11]))) ∧
    (∀ e ∈ eventsSince (after .cons (two4 [0x341#11] [0x600#11, 0x400#11]))
      (afterOrder [.prod] (after .cons (two4 [0x341#11] [0x600#11, 0x400#11]))), e.isRead = false ∧ e.isClear = false) ∧
    (afterOrder [.prod] (after .cons (two4 [0x341#11] [0x600#11, 0x400#11]))).pendingOp .cons .get :=
  ⟨two4_inv _ _, ⟨_, rfl, by decide⟩, by decide, rfl, by decide, ⟨_, rfl, by decide⟩⟩

/-- CLEAR and then PUT, and then GET. -/
theorem witness_after_clears :
    (two4 [0x100#11, 0x341#11] [0x400#11]).Inv ∧
    performOrder [.prod, .prod] (two4 [0x100#11, 0x341#11] [0x400#11]) =
      .next (afterOrder [.prod, .prod] (two4 [0x100#11, 0x341#11] [0x400#11])) ∧
    (∃ e ∈ eventsSince (two4 [0x100#11, 0x341#11] [0x400#11])
      (afterOrder [.prod, .prod] (two4 [0x100#11, 0x341#11] [0x400#11])), e.isClear = true) ∧
    (afterOrder [.prod, .prod] (two4 [0x100#11, 0x341#11] [0x400#11])).pendingOp .cons .get :=
  ⟨two4_inv _ _, rfl, by decide, ⟨_, rfl, by decide⟩⟩

theorem witness_clear_race :
    (fresh4 [0x341#11] [0x100#11]).Inv ∧ (fresh4 [0x341#11] [0x100#11]).cnt = 0 ∧
    (fresh4 [0x341#11] [0x100#11]).pendingOp .prod (.put 0x41#8) ∧ (fresh4 [0x341#11] [0x100#11]).pendingOp .cons .clear :=
  ⟨fresh4_inv _ _, rfl, ⟨_, rfl, by decide⟩, ⟨_, rfl, by decide⟩⟩
theorem witness_clear_get_race :
    (two4 [0x100#11] [0x400#11]).Inv ∧ (two4 [0x100#11] [0x400#11]).cnt ≠ 0 ∧
    (two4 [0x100#11] [0x400#11]).pendingOp .prod .clear ∧ (two4 [0x100#11] [0x400#11]).pendingOp .cons .get :=
  ⟨two4_inv _ _, by decide, ⟨_, rfl, by decide⟩, ⟨_, rfl, by decide⟩⟩
theorem witness_together :
    (full4 [0x399#11] [0x400#11]).Inv ∧ (full4 [0x399#11] [0x400#11]).cnt = (full4 [0x399#11] [0x400#11]).cfg.cap ∧
    (full4 [0x399#11] [0x400#11]).pendingOp .prod (.put 0x99#8) ∧ (full4 [0x399#11] [0x400#11]).pendingOp .cons .get :=
  ⟨full4_inv _ _, rfl, ⟨_, rfl, by decide⟩, ⟨_, rfl, by decide⟩⟩

/-- PEEK twice, and CLEAR on both ports. -/
theorem witness_repeat :
    (two4 [] [0x500#11, 0x500#11]).pendingOp .cons .peek ∧
    performPort .cons (two4 [] [0x500#11, 0x500#11]) = .next (after .cons (two4 [] [0x500#11, 0x500#11])) ∧
    (after .cons (two4 [] [0x500#11, 0x500#11])).pendingOp .cons .peek ∧
    performPort .cons (after .cons (two4 [] [0x500#11, 0x500#11])) =
      .next (after .cons (after .cons (two4 [] [0x500#11, 0x500#11]))) ∧
    (two4 [0x100#11] [0x1FF#11]).pendingOp .prod .clear ∧
    performPort .prod (two4 [0x100#11] [0x1FF#11]) = .next (after .prod (two4 [0x100#11] [0x1FF#11])) ∧
    (after .prod (two4 [0x100#11] [0x1FF#11])).pendingOp .cons .clear :=
  ⟨⟨_, rfl, by decide⟩, rfl, ⟨_, rfl, by decide⟩, rfl, ⟨_, rfl, by decide⟩, rfl, ⟨_, rfl, by decide⟩⟩
theorem witness_repeat_outcomes :
    (after .prod (full4 [0x355#11] [])).prod.resp = some ⟨.full, 0⟩ ∧
    (two4 [0x341#11] []).pendingOp .prod (.put 0x41#8) ∧ (after .prod (two4 [0x341#11] [])).prod.resp = some ⟨.ok, 0⟩ ∧
    (two4 [] [0x400#11]).pendingOp .cons .get ∧ (after .cons (two4 [] [0x400#11])).cons.resp = some ⟨.ok, 0xFF⟩ :=
  ⟨by decide, ⟨_, rfl, by decide⟩, by decide, ⟨_, rfl, by decide⟩, by decide⟩

/-! ## Instances and notation -/

theorem witness_driver :
    ∃ d', Driver.stepsFifo [.receive, .transmit, .receive]
      ⟨full4 [] [0x400#11, 0x400#11], fresh4 [0x341#11] []⟩ = .next d' := ⟨_, rfl⟩
theorem witness_assemble : (AsmLine.mk .prod (.op .put (some 10#8) (some (.ok none)))).assemble = some 0x30A#11 := by decide
theorem witness_listing : (loadListing State.reset
    [⟨.prod, .op .put (some 10#8) none⟩, ⟨.cons, .op .get none none⟩, ⟨.cons, .word 0x700#11⟩]).isSome = true := by decide

end Sys2Proof.Tests
end

/-! PROOFS. The ranges of the registers, the ring relation and the two level outputs (10 R28, R29, R33). -/

namespace Sys2Proof.Machine

/-- What a performed request may do to the three registers: keep them, reset them (CLEAR), or move one
index and the count (a PUT or GET that is accepted, from a state that is not full or not empty). -/
inductive RegisterChange (s t : State) : Prop where
  | keep (hr : t.rd = s.rd) (hw : t.wr = s.wr) (hc : t.cnt = s.cnt)
  | clear (hr : t.rd = 0) (hw : t.wr = 0) (hc : t.cnt = 0)
  | put (hf : s.cnt ≠ s.cfg.cap) (hr : t.rd = s.rd) (hw : t.wr = s.inc s.wr) (hc : t.cnt = s.cnt + 1)
  | get (he : s.cnt ≠ 0) (hr : t.rd = s.inc s.rd) (hw : t.wr = s.wr) (hc : t.cnt = s.cnt - 1)

theorem SameBlock.registerChange {s t : State} (h : SameBlock s t) : RegisterChange s t :=
  .keep h.rd h.wr h.cnt

theorem BlockChange.registerChange {p : Port} {w : Request} {s t : State} {r : Response}
    (h : BlockChange p w s t r) : RegisterChange s t := by
  cases h with
  | illegal _ hb _ => exact hb.registerChange
  | clear _ _ hr hw hc _ => exact .clear hr hw hc
  | capacity _ hb _ => exact hb.registerChange
  | count _ hb _ => exact hb.registerChange
  | putFull _ _ _ hb _ => exact hb.registerChange
  | put _ _ hf _ _ hr hw hc _ => exact .put hf hr hw hc
  | readEmpty _ _ _ hb _ => exact hb.registerChange
  | get _ _ he _ _ hr hw hc _ => exact .get he hr hw hc
  | peek _ _ _ _ hb _ => exact hb.registerChange

theorem performPort_cfg {p : Port} {s t : State} (h : performPort p s = .next t) : t.cfg = s.cfg := by
  obtain ⟨_, _, _, hans, _⟩ := performPort_cases h
  simpa using hans.cfg

theorem performPort_registerChange {p : Port} {s t : State} (h : performPort p s = .next t) :
    RegisterChange s t := by
  obtain ⟨_, _, _, _, hchange⟩ := performPort_cases h
  exact hchange.registerChange

/-! ### The ranges (10 R28) -/

theorem State.resetWith_bounds (c : Config) (n : Nat) : (State.resetWith c n).Bounds :=
  ⟨Nat.zero_le _, c.cap_pos, c.cap_pos⟩

theorem RegisterChange.bounds {s t : State} (h : RegisterChange s t) (hcfg : t.cfg = s.cfg)
    (hs : s.Bounds) : t.Bounds := by
  obtain ⟨hcnt, hrd, hwr⟩ := hs
  have hcap := s.cfg.cap_pos
  have hincRd := s.inc_lt hrd
  have hincWr := s.inc_lt hwr
  cases h with
  | keep hr hw hc | clear hr hw hc | put _ hr hw hc | get _ hr hw hc =>
    constructor <;> rw [hcfg] <;> omega

theorem performPort_bounds {p : Port} {s t : State} (hs : s.Bounds) (h : performPort p s = .next t) :
    t.Bounds :=
  (performPort_registerChange h).bounds (performPort_cfg h) hs

/-- Settles O31: every change of the registers keeps them in range. -/
theorem boundsHoldAtAllTimes : Obligations.BoundsHoldAtAllTimes :=
  ⟨State.resetWith_bounds, fun _ _ _ => performPort_bounds⟩

/-! ### The ring relation (10 R29) -/

theorem RegisterChange.ring {s t : State} (h : RegisterChange s t) (hcfg : t.cfg = s.cfg)
    (hs : s.Bounds) (hring : s.wr = (s.rd + s.cnt) % s.cfg.cap) :
    t.wr = (t.rd + t.cnt) % t.cfg.cap := by
  cases h with
  | keep hr hw hc => rw [hr, hw, hc, hcfg, hring]
  | clear hr hw hc => rw [hr, hw, hc, Nat.zero_mod]
  | put _ hr hw hc =>
    calc t.wr = (s.wr + 1) % s.cfg.cap := by rw [hw, s.inc_eq hs.wr_lt]
      _ = (s.rd + s.cnt + 1) % s.cfg.cap := by rw [hring, Nat.mod_add_mod]
      _ = (t.rd + t.cnt) % t.cfg.cap := by rw [hr, hc, hcfg, Nat.add_assoc]
  | get he hr hw hc =>
    have hsum : s.rd + s.cnt = s.rd + 1 + (s.cnt - 1) := by omega
    calc t.wr = (s.rd + 1 + (s.cnt - 1)) % s.cfg.cap := by rw [hw, hring, hsum]
      _ = (t.rd + t.cnt) % t.cfg.cap := by rw [hr, hc, hcfg, s.inc_eq hs.rd_lt, Nat.mod_add_mod]

theorem performPort_ring {p : Port} {s t : State} (hs : s.Bounds)
    (hring : s.wr = (s.rd + s.cnt) % s.cfg.cap) (h : performPort p s = .next t) :
    t.wr = (t.rd + t.cnt) % t.cfg.cap :=
  (performPort_registerChange h).ring (performPort_cfg h) hs hring

/-- A move of at most one full turn around the ring ends where it began only if it is none or a full one:
without a wrap the sum itself is the end, with one the end is `cap` lower. -/
theorem eq_add_mod_iff {rd cnt cap : Nat} (hrd : rd < cap) (hcnt : cnt ≤ cap) :
    rd = (rd + cnt) % cap ↔ cnt = 0 ∨ cnt = cap := by
  by_cases hwrap : rd + cnt < cap
  · rw [Nat.mod_eq_of_lt hwrap]
    omega
  · rw [Nat.mod_eq_sub_mod (by omega), Nat.mod_eq_of_lt (by omega)]
    omega

/-- Settles O32: reset computes, every change of the registers keeps the relation, and equal indices are
`eq_add_mod_iff`. -/
theorem writeIndexFollowsReadIndexAndCount : Obligations.WriteIndexFollowsReadIndexAndCount := by
  refine ⟨fun c n => (Nat.zero_mod c.cap).symm, fun _ _ _ => performPort_ring, fun s hs hring => ?_⟩
  rw [hring]
  exact eq_add_mod_iff hs.rd_lt hs.cnt_le

/-! ### The level outputs (10 R32, R33) -/

theorem State.emptyO_iff (s : State) : s.emptyO = true ↔ s.cnt = 0 := decide_eq_true_iff

theorem State.fullO_iff (s : State) : s.fullO = true ↔ s.cnt = s.cfg.cap := decide_eq_true_iff

theorem State.not_emptyO_and_fullO (s : State) : (s.emptyO && s.fullO) = false := by
  rw [Bool.eq_false_iff, Ne, Bool.and_eq_true, s.emptyO_iff, s.fullO_iff]
  rintro ⟨hempty, hfull⟩
  have hcap := s.cfg.cap_pos
  omega

/-- With CAP = 1 the count is 0 or 1, so one of the outputs shows it. -/
theorem State.emptyO_or_fullO {s : State} (hcnt : s.cnt ≤ s.cfg.cap) (hcap : s.cfg.cap = 1) :
    s.emptyO = true ∨ s.fullO = true := by
  rw [s.emptyO_iff, s.fullO_iff]
  omega

/-- Settles O22: CAP is at least 1, so the count cannot be both 0 and CAP; with CAP = 1 it is one of them. -/
theorem emptyAndFullExcludeEachOther : Obligations.EmptyAndFullExcludeEachOther := by
  intro s hcnt
  have hnot := s.not_emptyO_and_fullO
  refine ⟨hnot, fun hcap => ?_⟩
  rcases State.emptyO_or_fullO hcnt hcap with h | h <;> simpa [h] using hnot

end Sys2Proof.Machine

/-! PROOFS. The FIFO contract (20 R50): the block performs each request as the bounded list of bytes does
(10 R30), and the list neither loses, duplicates nor reorders a byte. -/

namespace Sys2Proof.Machine

/-! ### The block refines the bounded list (10 R30) -/

theorem SameBlock.queue {s t : State} (h : SameBlock s t) (hcfg : t.cfg = s.cfg) (hlaunch : t.launch = s.launch) :
    t.queue = s.queue :=
  State.queue_congr hcfg h.buf hlaunch h.rd h.cnt

/-- A change of the block is the change of the queue contents that the bounded list makes, and its response
is the list's. -/
theorem BlockChange.queuePerform_eq {p : Port} {w : Request} {s t : State} {r : Response}
    (h : BlockChange p w s t r) (hcfg : t.cfg = s.cfg) (hlaunch : t.launch = s.launch) (hs : s.Bounds)
    (hring : s.wr = (s.rd + s.cnt) % s.cfg.cap) :
    queuePerform s.cfg.cap s.queue p w = (r, t.queue) := by
  have hlen := s.queue_length
  cases h with
  | illegal hd hb _ => simp [queuePerform, hd, hb.queue hcfg hlaunch]
  | clear hd _ _ _ hc _ => simp [queuePerform, hd, State.queue_empty hc]
  | capacity hd hb _ => simp [queuePerform, hd, hb.queue hcfg hlaunch]
  | count hd hb _ => simp [queuePerform, hd, hb.queue hcfg hlaunch, hlen, zextRw_of_le hs.cnt_le]
  | putFull hd _ hf hb _ => simp [queuePerform, hd, queuePut, hlen, hf, hb.queue hcfg hlaunch]
  | put hd _ hf _ hb hr _ hc _ =>
    have hlt : s.cnt < s.cfg.cap := lt_of_le_of_ne hs.cnt_le hf
    simp [queuePerform, hd, queuePut, hlen, hf, State.queue_put hs.rd_lt hlt hring hcfg hb hlaunch hr hc]
  | readEmpty hd _ he hb _ =>
    rcases hd with hd | hd <;>
      simp [queuePerform, hd, queueGet, queuePeek, hb.queue hcfg hlaunch, State.queue_empty he]
  | get hd _ he _ hb hr _ hc _ =>
    simp [queuePerform, hd, queueGet, State.queue_get hs.rd_lt he hcfg hb hlaunch hr hc]
  | peek hd _ he _ hb _ =>
    obtain ⟨q, hq⟩ := State.queue_head hs.rd_lt he
    simp [queuePerform, hd, queuePeek, hb.queue hcfg hlaunch, hq]

/-- Performing a port's request records the event, and leaves the queue contents, of the bounded list
performing it. -/
theorem performPort_queuePerform {p : Port} {s t : State} (hs : s.Bounds)
    (hring : s.wr = (s.rd + s.cnt) % s.cfg.cap) (h : performPort p s = .next t) :
    ∃ w, (s.port p).pending = some w ∧
      t.history = s.history ++ [⟨p, w, (queuePerform s.cfg.cap s.queue p w).1⟩] ∧
      t.queue = (queuePerform s.cfg.cap s.queue p w).2 := by
  obtain ⟨w, r, hw, hans, hchange⟩ := performPort_cases h
  have hq := hchange.queuePerform_eq (by simpa using hans.cfg) (by simpa using hans.launch) hs hring
  exact ⟨w, hw, by simpa [hq] using hans.recorded, by rw [hq]⟩

/-! ### The bounded list conserves its bytes (20 R50) -/

theorem acceptedBytes_append (es fs : List Event) :
    acceptedBytes (es ++ fs) = acceptedBytes es ++ acceptedBytes fs := List.filterMap_append

theorem receivedBytes_append (es fs : List Event) :
    receivedBytes (es ++ fs) = receivedBytes es ++ receivedBytes fs := List.filterMap_append

/-- One request other than CLEAR: a byte enters at the tail by a PUT answered OK or leaves at the head by a
GET answered OK, and nothing else moves. -/
theorem queuePerform_conserves (cap : Nat) (q : List Byte) {p : Port} {w : Request}
    (hclear : decode p w ≠ .op .clear) :
    q ++ acceptedBytes [⟨p, w, (queuePerform cap q p w).1⟩] =
      receivedBytes [⟨p, w, (queuePerform cap q p w).1⟩] ++ (queuePerform cap q p w).2 := by
  simp only [queuePerform, acceptedBytes, receivedBytes, Event.accepted, Event.received, Event.decoded,
    List.filterMap_cons, List.filterMap_nil]
  cases hd : decode p w with
  | illegal reason => simp
  | op i =>
    cases i with
    | clear => exact absurd hd hclear
    | capacity => simp
    | count => simp
    | put b => by_cases hfull : q.length = cap <;> simp [queuePut, hfull]
    | get => cases q <;> simp [queueGet]
    | peek => cases q <;> simp [queuePeek]

/-! ### Perform orders -/

/-- The events of a perform order stand at the end of the history and, where none is a CLEAR, account for
every byte of the queue contents. -/
theorem performOrder_conserves {order : List Port} {s t : State} (hs : s.Bounds)
    (hring : s.wr = (s.rd + s.cnt) % s.cfg.cap) (h : performOrder order s = .next t) :
    ∃ es, t.history = s.history ++ es ∧
      ((∀ e ∈ es, e.isClear = false) → s.queue ++ acceptedBytes es = receivedBytes es ++ t.queue) := by
  induction order generalizing s with
  | nil =>
    cases h
    exact ⟨[], by simp, fun _ => by simp [acceptedBytes, receivedBytes]⟩
  | cons p order ih =>
    obtain ⟨u, hu, h⟩ := performOrder_cons h
    obtain ⟨w, -, hhist, hqueue⟩ := performPort_queuePerform hs hring hu
    obtain ⟨es, hes, hrest⟩ := ih (performPort_bounds hs hu) (performPort_ring hs hring hu) h
    refine ⟨[⟨p, w, (queuePerform s.cfg.cap s.queue p w).1⟩] ++ es, by rw [hes, hhist, List.append_assoc],
      fun hclear => ?_⟩
    obtain ⟨hfirst, hlater⟩ := List.forall_mem_cons.1 hclear
    have hstep := queuePerform_conserves s.cfg.cap s.queue (of_decide_eq_false hfirst)
    rw [← hqueue] at hstep
    rw [acceptedBytes_append, receivedBytes_append, ← List.append_assoc, hstep, List.append_assoc,
      hrest hlater, List.append_assoc]

/-- Settles O40, by `performOrder_conserves`: the events it speaks of are those since the first state. -/
theorem fifoContract : Obligations.FifoContract := by
  intro order s t hinv h hclear
  obtain ⟨es, hes, hconserves⟩ := performOrder_conserves hinv.bounds hinv.ring h
  have hsince : eventsSince s t = es := by simp [eventsSince, hes]
  rw [hsince] at hclear ⊢
  exact hconserves hclear

end Sys2Proof.Machine

/-! PROOFS. The data field of every response (30 R67): a table of the operation and the state where the
status is OK, and 0 elsewhere. -/

namespace Sys2Proof.Machine

/-- The data of a request that decodes to `d` and is answered OK, performed from `s` (30 R67). -/
def State.okData (s : State) (d : Decoded) : Nat :=
  match d with
  | .op .capacity => s.cfg.cap
  | .op .count => s.cnt
  | .op .get | .op .peek => (s.memRead s.rd).toNat
  | .op .clear | .op (.put _) | .illegal _ => 0

@[simp] theorem State.okData_clear (s : State) : s.okData (.op .clear) = 0 := rfl
@[simp] theorem State.okData_put (s : State) (b : Byte) : s.okData (.op (.put b)) = 0 := rfl
@[simp] theorem State.okData_capacity (s : State) : s.okData (.op .capacity) = s.cfg.cap := rfl
@[simp] theorem State.okData_count (s : State) : s.okData (.op .count) = s.cnt := rfl
@[simp] theorem State.okData_get (s : State) : s.okData (.op .get) = (s.memRead s.rd).toNat := rfl
@[simp] theorem State.okData_peek (s : State) : s.okData (.op .peek) = (s.memRead s.rd).toNat := rfl

/-- RW is wide enough for every entry of the table: CAP, a count in range and a byte (00 R7). -/
theorem State.okData_lt_rw {s : State} (hcnt : s.cnt ≤ s.cfg.cap) (d : Decoded) :
    s.okData d < 2 ^ s.cfg.rw := by
  cases d with
  | illegal reason => exact Nat.two_pow_pos _
  | op i =>
    cases i with
    | clear | put => exact Nat.two_pow_pos _
    | capacity => exact Config.lt_rw le_rfl
    | count => exact Config.lt_rw hcnt
    | get | peek => exact Config.byte_lt_rw _ _

/-- The table read on any response. COUNT's data is cut to RW bits, so its count has to be in range. -/
theorem BlockChange.data_eq {p : Port} {w : Request} {s t : State} {r : Response}
    (h : BlockChange p w s t r) (hcnt : s.cnt ≤ s.cfg.cap) :
    r.data = if r.status = .ok then s.okData (decode p w) else 0 := by
  cases h with
  | illegal | putFull | readEmpty => rfl
  | count hd => simp [hd, zextRw_of_le hcnt]
  | clear hd | capacity hd | put hd | get hd | peek hd => simp [hd]

/-- CAPACITY and COUNT are legal on both ports and cannot find the queue full or empty. -/
theorem BlockChange.status_ok {p : Port} {w : Request} {s t : State} {r : Response}
    (h : BlockChange p w s t r) (hd : decode p w = .op .capacity ∨ decode p w = .op .count) :
    r.status = .ok := by
  cases h with
  | clear | capacity | count | put | get | peek => rfl
  | illegal hi | putFull hi => simp [hi] at hd
  | readEmpty hi => rcases hi with hi | hi <;> simp [hi] at hd

/-- Settles O21: the clauses are `BlockChange.data_eq` at the entries of the table, and CAPACITY and COUNT
always answer OK. -/
theorem responseDataFollowsTheOutcome : Obligations.ResponseDataFollowsTheOutcome := by
  intro p s t hs h
  obtain ⟨w, r, hw, hans, hchange⟩ := performPort_cases h
  have hresp : (t.port p).resp = some r := by simpa using congrArg PortState.resp hans.answered
  have hdata := hchange.data_eq hs.cnt_le
  refine ⟨w, r, hw, hresp, ?bound, fun hst => ?notOk, fun hd => ?clear, fun b hd => ?put,
    fun hd => ?capacity, fun hd => ?count, fun hd hst => ?read⟩
  case bound =>
    rw [hdata]
    split
    · exact State.okData_lt_rw hs.cnt_le _
    · exact Nat.two_pow_pos _
  case notOk => rw [hdata, if_neg hst]
  case clear | put => simp [hdata, hd]
  case capacity => simp [hdata, hchange.status_ok (.inl hd), hd]
  case count => simp [hdata, hchange.status_ok (.inr hd), hd]
  case read => rcases hd with hd | hd <;> simp [hdata, hst, hd]

end Sys2Proof.Machine

/-! PROOFS. What the bytes outside the live window can influence (40 R89): nothing. The block answers as the
bounded list of its unread bytes does (10 R30), so those bytes fix the response, the contents and the count;
the ring relation fixes the write index (10 R29); and the read index and the fault mark never look at the
storage. -/

namespace Sys2Proof.Machine

/-! ### The read index and the fault mark -/

/-- Only CLEAR and a GET that finds a byte move the read index. -/
theorem BlockChange.rd_eq {p : Port} {w : Request} {s t : State} {r : Response} (h : BlockChange p w s t r) :
    t.rd = if decode p w = .op .clear then 0
      else if decode p w = .op .get ∧ s.cnt ≠ 0 then s.inc s.rd else s.rd := by
  cases h with
  | illegal hd hb _ | capacity hd hb _ | count hd hb _ | putFull hd _ _ hb _ | peek hd _ _ _ hb _ =>
    simp [hd, hb.rd]
  | clear hd _ hr _ _ _ => simp [hd, hr]
  | put hd _ _ _ _ hr _ _ _ => simp [hd, hr]
  | readEmpty hd _ he hb _ => rcases hd with hd | hd <;> simp [hd, he, hb.rd]
  | get hd _ he _ _ hr _ _ _ => simp [hd, he, hr]

/-- The fault mark is set by an ILLEGAL response and by nothing else, and never cleared (10 R39). -/
theorem BlockChange.faultMark_eq {p : Port} {w : Request} {s t : State} {r : Response}
    (h : BlockChange p w s t r) : t.faultMark = (s.faultMark || decide (r.status = .illegal)) := by
  cases h with
  | illegal _ _ hm => simp [hm]
  | clear _ _ _ _ _ hm | capacity _ _ hm | count _ _ hm | putFull _ _ _ _ hm | put _ _ _ _ _ _ _ _ hm
  | readEmpty _ _ _ _ hm | get _ _ _ _ _ _ _ _ hm | peek _ _ _ _ _ hm => simp [hm]

/-! ### States that differ in stale bytes -/

theorem SameButStale.port {s s' : State} (h : SameButStale s s') (p : Port) : s'.port p = s.port p := by
  cases p with
  | prod => exact h.prod
  | cons => exact h.cons

theorem SameButStale.inc {s s' : State} (h : SameButStale s s') (i : Nat) : s'.inc i = s.inc i := by
  simp [State.inc, h.cfg]

theorem SameButStale.bounds {s s' : State} (h : SameButStale s s') (hs : s.Bounds) : s'.Bounds := by
  constructor
  · rw [h.cnt, h.cfg]; exact hs.cnt_le
  · rw [h.rd, h.cfg]; exact hs.rd_lt
  · rw [h.wr, h.cfg]; exact hs.wr_lt

theorem SameButStale.ring {s s' : State} (h : SameButStale s s') (hring : s.wr = (s.rd + s.cnt) % s.cfg.cap) :
    s'.wr = (s'.rd + s'.cnt) % s'.cfg.cap := by
  rw [h.wr, h.rd, h.cnt, h.cfg, hring]

/-- One request answered alike from two states whose ports are alike leaves the ports alike. -/
theorem SameButStale.port_of_answered {s s' t t' : State} {p : Port} {w : Request} {r : Response}
    (h : SameButStale s s') (ht : AnsweredWith (s.accept p w) t w r)
    (ht' : AnsweredWith (s'.accept p w) t' w r) (q : Port) : t'.port q = t.port q := by
  rcases Port.eq_or_other p q with rfl | rfl
  · simpa [h.port] using ht'.answered.trans (by simpa [h.port] using ht.answered.symm)
  · simpa [h.port] using ht'.otherPort.trans (by simpa [h.port] using ht.otherPort.symm)

/-- A request performed from two states that differ in stale bytes alone leaves two such states. -/
theorem SameButStale.performPort_next {s s' t t' : State} {p : Port} (h : SameButStale s s') (hs : s.Bounds)
    (hring : s.wr = (s.rd + s.cnt) % s.cfg.cap) (ht : performPort p s = .next t)
    (ht' : performPort p s' = .next t') : SameButStale t t' := by
  obtain ⟨w, r, hw, hans, hchange⟩ := performPort_cases ht
  obtain ⟨w', r', hw', hans', hchange'⟩ := performPort_cases ht'
  obtain rfl : w = w' := by rw [h.port, hw] at hw'; exact Option.some.inj hw'
  have hcfg : t'.cfg = t.cfg := by rw [performPort_cfg ht', performPort_cfg ht, h.cfg]
  obtain ⟨rfl, hqueue⟩ : r' = r ∧ t'.queue = t.queue := by
    have hlist := hchange.queuePerform_eq (performPort_cfg ht) (by simpa using hans.launch) hs hring
    have hlist' := hchange'.queuePerform_eq (performPort_cfg ht') (by simpa using hans'.launch) (h.bounds hs)
      (h.ring hring)
    rw [h.cfg, h.queue, hlist] at hlist'
    exact Prod.mk.inj hlist'.symm
  have hcnt : t'.cnt = t.cnt := by rw [← t'.queue_length, ← t.queue_length, hqueue]
  have hrd : t'.rd = t.rd := by rw [hchange'.rd_eq, hchange.rd_eq, h.cnt, h.rd, h.inc]
  have hwr : t'.wr = t.wr := by
    rw [performPort_ring (h.bounds hs) (h.ring hring) ht', performPort_ring hs hring ht, hrd, hcnt, hcfg]
  have hport := h.port_of_answered hans hans'
  have hhistory : t'.history = t.history := by rw [hans'.recorded, hans.recorded]; simp [h.history]
  have hmark : t'.faultMark = t.faultMark := by
    rw [hchange'.faultMark_eq, hchange.faultMark_eq, h.faultMark]
  exact ⟨hqueue, hcfg, hrd, hwr, hcnt, hport .prod, hport .cons, hhistory, hmark⟩

/-- A request that one of two states that differ in stale bytes alone performs, the other performs too. -/
theorem SameButStale.performPort_exists {s s' t : State} {p : Port} (h : SameButStale s s') (hs : s.Bounds)
    (ht : performPort p s = .next t) : ∃ t', performPort p s' = .next t' := by
  obtain ⟨w, _, hw, -⟩ := performPort_cases ht
  have hs' := h.bounds hs
  exact Machine.performPort_exists ((congrArg PortState.pending (h.port p)).trans hw) hs'.rd_lt hs'.wr_lt

theorem SameButStale.performOrder {order : List Port} {s s' t : State} (h : SameButStale s s') (hs : s.Bounds)
    (hring : s.wr = (s.rd + s.cnt) % s.cfg.cap) (ht : performOrder order s = .next t) :
    ∃ t', performOrder order s' = .next t' ∧ SameButStale t t' := by
  induction order generalizing s s' with
  | nil =>
    cases ht
    exact ⟨s', rfl, h⟩
  | cons p order ih =>
    obtain ⟨u, hu, ht⟩ := performOrder_cons ht
    obtain ⟨u', hu'⟩ := h.performPort_exists hs hu
    obtain ⟨t', ht', hsame⟩ :=
      ih (h.performPort_next hs hring hu hu') (performPort_bounds hs hu) (performPort_ring hs hring hu) ht
    exact ⟨t', by simp only [Machine.performOrder, hu', ht'], hsame⟩

/-- Settles O43, by `SameButStale.performOrder`: of the invariant it takes the ranges and the ring relation. -/
theorem staleBytesInfluenceNothing : Obligations.StaleBytesInfluenceNothing :=
  fun _ _ _ _ hinv _ hsame ht => hsame.performOrder hinv.bounds hinv.ring ht

end Sys2Proof.Machine

/-! PROOFS. The priority of the checks (40 R86) and the index advance (40 R91). -/

namespace Sys2Proof

/-! ### Opcode first, then port -/

theorem decodeOp_reserved {w : Request} (h : opField w = 0b000#3 ∨ opField w = 0b111#3) :
    decodeOp w = none := by
  rcases h with h | h <;> simp [decodeOp, h]

theorem decode_of_decodeOp_none (p : Port) {w : Request} (h : decodeOp w = none) :
    decode p w = .illegal .reservedOpcode := by
  simp [decode, h]

theorem decode_of_not_legalOn {p : Port} {w : Request} {i : Instr} (h : decodeOp w = some i)
    (hl : i.legalOn p = false) : decode p w = .illegal .wrongPort := by
  simp [decode, h, hl]

end Sys2Proof

namespace Sys2Proof.Machine

/-! ### Which request answers which status -/

theorem BlockChange.status_illegal_iff {p : Port} {w : Request} {s t : State} {r : Response}
    (h : BlockChange p w s t r) : r.status = .illegal ↔ ∃ reason, decode p w = .illegal reason := by
  cases h with
  | illegal hd | clear hd | capacity hd | count hd | putFull hd | put hd | get hd | peek hd => simp [hd]
  | readEmpty hd => rcases hd with hd | hd <;> simp [hd]

theorem BlockChange.status_full_iff {p : Port} {w : Request} {s t : State} {r : Response}
    (h : BlockChange p w s t r) :
    r.status = .full ↔ (∃ b, decode p w = .op (.put b)) ∧ s.cnt = s.cfg.cap := by
  cases h with
  | illegal hd | clear hd | capacity hd | count hd | get hd | peek hd => simp [hd]
  | putFull hd _ hf | put hd _ hf => simp [hd, hf]
  | readEmpty hd => rcases hd with hd | hd <;> simp [hd]

theorem BlockChange.status_empty_iff {p : Port} {w : Request} {s t : State} {r : Response}
    (h : BlockChange p w s t r) :
    r.status = .empty ↔ (decode p w = .op .get ∨ decode p w = .op .peek) ∧ s.cnt = 0 := by
  cases h with
  | illegal hd | clear hd | capacity hd | count hd | putFull hd | put hd => simp [hd]
  | readEmpty hd _ he | get hd _ he | peek hd _ he => simp [hd, he]

/-- Settles O20: the decoder's order, and what each status says of the request that answered it. -/
theorem legalityComesBeforeFullAndEmpty : Obligations.LegalityComesBeforeFullAndEmpty := by
  refine ⟨fun p w h => decode_of_decodeOp_none p (decodeOp_reserved h),
    fun _ _ _ => decode_of_not_legalOn, fun p s t h => ?_⟩
  obtain ⟨w, r, hw, hans, hchange⟩ := performPort_cases h
  have hresp : (t.port p).resp = some r := by simpa using congrArg PortState.resp hans.answered
  exact ⟨w, r, hw, hresp, hchange.status_illegal_iff, hchange.status_full_iff, hchange.status_empty_iff⟩

/-! ### The index advance (40 R91) -/

theorem State.inc_zero_of_cap_one {s : State} (hcap : s.cfg.cap = 1) : s.inc 0 = 0 := by
  simp [State.inc, hcap]

/-- Settles O18, by the laws of `State.inc`. -/
theorem indexAdvanceWrapsAtCap : Obligations.IndexAdvanceWrapsAtCap :=
  fun s _ hi => ⟨s.inc_eq hi, s.inc_lt hi, State.inc_zero_of_cap_one⟩

end Sys2Proof.Machine

/-! PROOFS. PEEK and then GET (42 R113): on the bounded list of bytes (10 R30) both answer the head, and what
the producer performs other than CLEAR only adds bytes at the tail. -/

namespace Sys2Proof.Machine

/-! ### PEEK and GET on the bounded list -/

/-- PEEK answers as GET does, and leaves the list as it is. -/
theorem queuePeek_eq_queueGet (q : List Byte) : queuePeek q = ((queueGet q).1, q) := by
  cases q <;> rfl

/-- A byte that GET answers stays the answer when bytes are added at the tail. -/
theorem queueGet_append {q : List Byte} {v : Nat} (h : (queueGet q).1 = ⟨.ok, v⟩) (added : List Byte) :
    (queueGet (q ++ added)).1 = ⟨.ok, v⟩ := by
  cases q with
  | nil => simp [queueGet] at h
  | cons b q => exact h

/-- A port whose pending request is known gets the bounded list's response to it. -/
theorem State.pendingOp.performPort_queuePerform {p : Port} {i : Instr} {s t : State} (hop : s.pendingOp p i)
    (hs : s.Bounds) (hring : s.wr = (s.rd + s.cnt) % s.cfg.cap) (h : performPort p s = .next t) :
    ∃ w, decode p w = .op i ∧ (t.port p).resp = some (queuePerform s.cfg.cap s.queue p w).1 ∧
      t.queue = (queuePerform s.cfg.cap s.queue p w).2 := by
  obtain ⟨w, hw, hd⟩ := hop
  obtain ⟨w', r, hw', hans, hchange⟩ := performPort_cases h
  obtain rfl : w = w' := Option.some.inj (hw.symm.trans hw')
  have hq := hchange.queuePerform_eq (performPort_cfg h) (by simpa using hans.launch) hs hring
  have hresp : (t.port p).resp = some r := by simpa using congrArg PortState.resp hans.answered
  exact ⟨w, hd, by rw [hq, hresp], by rw [hq]⟩

/-- PEEK answers the head of the queue contents, if any, and keeps them. -/
theorem State.pendingOp.performPort_peek {s t : State} (hop : s.pendingOp .cons .peek) (hs : s.Bounds)
    (hring : s.wr = (s.rd + s.cnt) % s.cfg.cap) (h : performPort .cons s = .next t) :
    t.cons.resp = some (queueGet s.queue).1 ∧ t.queue = s.queue := by
  obtain ⟨w, hd, hresp, hqueue⟩ := hop.performPort_queuePerform hs hring h
  simp only [queuePerform, hd, queuePeek_eq_queueGet] at hresp hqueue
  exact ⟨hresp, hqueue⟩

/-- GET answers the head of the queue contents, if any. -/
theorem State.pendingOp.performPort_get {s t : State} (hop : s.pendingOp .cons .get) (hs : s.Bounds)
    (hring : s.wr = (s.rd + s.cnt) % s.cfg.cap) (h : performPort .cons s = .next t) :
    t.cons.resp = some (queueGet s.queue).1 := by
  obtain ⟨w, hd, hresp, -⟩ := hop.performPort_queuePerform hs hring h
  simpa only [queuePerform, hd, State.port_cons] using hresp

/-! ### What the producer performs -/

/-- GET is not legal on PROD, so no event of PROD returns a byte. -/
theorem Event.received_prod {e : Event} (hp : e.port = .prod) : e.received = none := by
  have hget : e.decoded ≠ .op .get := by
    intro hd
    rw [Event.decoded, hp] at hd
    exact absurd ((legalOn_get _).1 (legalOn_of_decode hd)) (by decide)
  unfold Event.received
  split
  · next hd _ => exact absurd hd hget
  · rfl

/-- A perform order adds one event for each of its ports, in order. -/
theorem performOrder_ports {order : List Port} {s t : State} (h : performOrder order s = .next t) :
    ∃ es, t.history = s.history ++ es ∧ es.map Event.port = order := by
  induction order generalizing s with
  | nil =>
    cases h
    exact ⟨[], by simp, rfl⟩
  | cons p order ih =>
    obtain ⟨u, hu, h⟩ := performOrder_cons h
    obtain ⟨w, r, -, -, -, hhist, -⟩ := performPort_frame hu
    obtain ⟨es, hes, hports⟩ := ih h
    exact ⟨⟨p, w, r⟩ :: es, by simp [hes, hhist], by simp [hports]⟩

/-- While only the producer acts, and performs no CLEAR, the queue contents only grow at the tail. -/
theorem performOrder_prod_queue {order : List Port} {s t : State} (hs : s.Bounds)
    (hring : s.wr = (s.rd + s.cnt) % s.cfg.cap) (hprod : ∀ p ∈ order, p = .prod)
    (h : performOrder order s = .next t) (hclear : ∀ e ∈ eventsSince s t, e.isClear = false) :
    t.queue = s.queue ++ acceptedBytes (eventsSince s t) := by
  obtain ⟨es, hes, hports⟩ := performOrder_ports h
  obtain ⟨es', hes', hconserves⟩ := performOrder_conserves hs hring h
  obtain rfl : es = es' := List.append_cancel_left (hes.symm.trans hes')
  have hsince : eventsSince s t = es := by simp [eventsSince, hes]
  rw [hsince] at hclear ⊢
  have hreceived : receivedBytes es = [] := List.filterMap_eq_nil_iff.2 fun e he =>
    Event.received_prod (hprod _ (hports ▸ List.mem_map_of_mem he))
  simpa [hreceived] using (hconserves hclear).symm

theorem performOrder_bounds_ring {order : List Port} {s t : State} (hs : s.Bounds)
    (hring : s.wr = (s.rd + s.cnt) % s.cfg.cap) (h : performOrder order s = .next t) :
    t.Bounds ∧ t.wr = (t.rd + t.cnt) % t.cfg.cap :=
  performOrder_keeps (P := fun s => s.Bounds ∧ s.wr = (s.rd + s.cnt) % s.cfg.cap)
    (fun _ _ _ hP hstep => ⟨performPort_bounds hP.1 hstep, performPort_ring hP.1 hP.2 hstep⟩) ⟨hs, hring⟩ h

/-- Settles O49: PEEK answers the head, the producer only adds behind it, and GET answers it again. -/
theorem peekThenGetAgree : Obligations.PeekThenGetAgree := by
  intro order s s1 t u v hinv hpeek hs1 hv hprod ht hclear hget hu
  have hbounds := performPort_bounds hinv.bounds hs1
  have hring := performPort_ring hinv.bounds hinv.ring hs1
  obtain ⟨hbounds', hring'⟩ := performOrder_bounds_ring hbounds hring ht
  obtain ⟨hresp, hqueue⟩ := hpeek.performPort_peek hinv.bounds hinv.ring hs1
  have hhead : (queueGet s1.queue).1 = ⟨.ok, v⟩ := by
    rw [hqueue]
    exact Option.some.inj (hresp.symm.trans hv)
  have hgrown := performOrder_prod_queue hbounds hring hprod ht hclear
  rw [hget.performPort_get hbounds' hring' hu, hgrown, queueGet_append hhead]

end Sys2Proof.Machine

/-! PROOFS. The exceptional responses: FULL and EMPTY, which change nothing of the block (60 R161, R162), and
ILLEGAL, which sets the fault mark (60 R163). -/

namespace Sys2Proof.Machine

/-! ### FULL and EMPTY -/

/-- An operation whose effect is its response alone leaves the block and the fault mark as they are. -/
theorem Effect.exec_keeps {i : Instr} {s : State} {r : Response} {w : Request} (h : Effect i s s r)
    (hw : (s.port s.turn).inFlight = some w) :
    ∃ t, exec i s = .next t ∧ AnsweredWith s t w r ∧ SameBlock s t ∧ t.faultMark = s.faultMark :=
  ⟨s.complete w r, exec_of_effect h hw, h.answered w, ⟨by simp, by simp, by simp, by simp⟩, by simp⟩

/-- Settles O10: the effect of PUT on a full buffer is `Effect.putFull`. -/
theorem putOnAFullBufferAnswersFull : Obligations.PutOnAFullBufferAnswersFull :=
  fun _ _ _ hw hprod hfull => (Effect.putFull hprod hfull).exec_keeps hw

/-- Settles O13: the effects on an empty buffer are `Effect.getEmpty` and `Effect.peekEmpty`. -/
theorem getAndPeekOnAnEmptyBufferAnswerEmpty : Obligations.GetAndPeekOnAnEmptyBufferAnswerEmpty := by
  intro i s w hi hw hcons hempty
  rcases hi with rfl | rfl
  · exact (Effect.getEmpty hcons hempty).exec_keeps hw
  · exact (Effect.peekEmpty hcons hempty).exec_keeps hw

end Sys2Proof.Machine

namespace Sys2Proof

/-! ### Which requests are illegal -/

/-- The operation decoded is the one whose code the request carries. -/
theorem opField_of_decodeOp {w : Request} {i : Instr} (h : decodeOp w = some i) : opField w = i.opcode := by
  unfold decodeOp at h
  split at h <;> cases h
  all_goals exact BitVec.eq_of_toNat_eq ‹_›

/-- Only the reserved codes select no operation (30 R63): the six from 001 to 110 are taken. -/
theorem decodeOp_eq_none_iff (w : Request) :
    decodeOp w = none ↔ opField w = 0b000#3 ∨ opField w = 0b111#3 := by
  refine ⟨fun h => ?_, decodeOp_reserved⟩
  unfold decodeOp at h
  split at h <;> cases h
  next h1 h2 h3 h4 h5 h6 =>
    have hlt := (opField w).isLt
    simp only [imp_false] at h1 h2 h3 h4 h5 h6
    have hcode : (opField w).toNat = 0 ∨ (opField w).toNat = 7 := by omega
    exact hcode.imp BitVec.eq_of_toNat_eq BitVec.eq_of_toNat_eq

/-- A request that selects an operation is illegal only on a port where that operation is not legal. -/
theorem decode_illegal_iff_of_decodeOp {p : Port} {w : Request} {i : Instr} (h : decodeOp w = some i) :
    (∃ reason, decode p w = .illegal reason) ↔ i.legalOn p = false := by
  cases hl : i.legalOn p <;> simp [decode, h, hl]

theorem Instr.legalOn_eq_false_iff (i : Instr) (p : Port) :
    i.legalOn p = false ↔
      (i.opcode = 0b011#3 ∧ p = .cons) ∨ ((i.opcode = 0b100#3 ∨ i.opcode = 0b101#3) ∧ p = .prod) := by
  cases i with
  | clear | capacity | put | get | peek | count => cases p <;> simp [Instr.legalOn, Instr.opcode]

/-- The illegal requests of 60 R163, by their code and their port. -/
theorem decode_illegal_iff (p : Port) (w : Request) :
    (∃ reason, decode p w = .illegal reason) ↔
      opField w = 0b000#3 ∨ opField w = 0b111#3 ∨ (opField w = 0b011#3 ∧ p = .cons) ∨
        ((opField w = 0b100#3 ∨ opField w = 0b101#3) ∧ p = .prod) := by
  cases hop : decodeOp w with
  | none =>
    have hreserved := (decodeOp_eq_none_iff w).1 hop
    have hillegal := decode_of_decodeOp_none p hop
    exact iff_of_true ⟨_, hillegal⟩ (hreserved.imp_right .inl)
  | some i =>
    have hnot : ¬ (opField w = 0b000#3 ∨ opField w = 0b111#3) := by
      rw [← decodeOp_eq_none_iff, hop]
      exact Option.some_ne_none i
    rw [decode_illegal_iff_of_decodeOp hop, i.legalOn_eq_false_iff, ← opField_of_decodeOp hop, ← or_assoc,
      or_iff_right hnot]

end Sys2Proof

namespace Sys2Proof.Machine

/-! ### What an illegal request does -/

/-- A pending request that is illegal is rejected, whatever the registers hold. -/
theorem performPort_of_illegal {p : Port} {s : State} {w : Request} {reason : IllegalReason}
    (hw : (s.port p).pending = some w) (hd : decode p w = .illegal reason) :
    performPort p s = .next ((s.accept p w).markFault.complete w ⟨.illegal, 0⟩) := by
  simp only [performPort, hw, runRequest, State.accept_turn, hd]
  exact raiseIllegal_next.2 ⟨w, by simp, rfl⟩

theorem BlockChange.of_illegal {p : Port} {w : Request} {s t : State} {r : Response} {reason : IllegalReason}
    (h : BlockChange p w s t r) (hd : decode p w = .illegal reason) :
    r = ⟨.illegal, 0⟩ ∧ SameBlock s t ∧ t.faultMark = true := by
  cases h with
  | illegal _ hb hm => exact ⟨rfl, hb, hm⟩
  | clear hop | capacity hop | count hop | putFull hop | put hop | get hop | peek hop => simp [hd] at hop
  | readEmpty hop => simp [hd] at hop

/-- The fault mark is never cleared (10 R39). -/
theorem performPort_keeps_faultMark {p : Port} {s t : State} (h : performPort p s = .next t)
    (hm : s.faultMark = true) : t.faultMark = true := by
  obtain ⟨_, _, _, _, hchange⟩ := performPort_cases h
  simp [hchange.faultMark_eq, hm]

/-- Settles O19: the decoder's rejections are `decode_illegal_iff`; a rejected request is answered, and what it
and every other request do to the block is `BlockChange`. -/
theorem illegalRequestSetsOnlyTheFaultMark : Obligations.IllegalRequestSetsOnlyTheFaultMark := by
  refine ⟨decode_illegal_iff, fun p s w reason hw hd => ?_, fun _ _ _ => performPort_keeps_faultMark⟩
  have hperform := performPort_of_illegal hw hd
  obtain ⟨w', r, hw', hans, hchange⟩ := performPort_cases hperform
  obtain rfl : w = w' := Option.some.inj (hw.symm.trans hw')
  obtain ⟨rfl, hblock, hmark⟩ := hchange.of_illegal hd
  exact ⟨_, hperform, hans, hblock, hmark⟩

end Sys2Proof.Machine

/-! PROOFS. What COUNT promises its port (70 R195, R196): without a PUT the count does not rise, and without a
GET, PEEK or CLEAR it does not fall, so the answer still bounds the count at the port's next transfer. -/

namespace Sys2Proof.Machine

/-! ### Which request moves the count, and which way -/

/-- Only a PUT raises the count. -/
theorem BlockChange.cnt_le_of_not_put {p : Port} {w : Request} {s t : State} {r : Response}
    (h : BlockChange p w s t r) (hput : Event.isPut ⟨p, w, r⟩ = false) : t.cnt ≤ s.cnt := by
  cases h with
  | illegal _ hb | capacity _ hb | count _ hb | putFull _ _ _ hb | readEmpty _ _ _ hb | peek _ _ _ _ hb =>
    exact hb.cnt.le
  | clear _ _ _ _ hc | get _ _ _ _ _ _ _ hc => omega
  | put hd => simp [Event.isPut, Event.decoded, hd] at hput

/-- Only a GET and a CLEAR lower the count. -/
theorem BlockChange.le_cnt_of_not_read_clear {p : Port} {w : Request} {s t : State} {r : Response}
    (h : BlockChange p w s t r) (hread : Event.isRead ⟨p, w, r⟩ = false)
    (hclear : Event.isClear ⟨p, w, r⟩ = false) : s.cnt ≤ t.cnt := by
  cases h with
  | illegal _ hb | capacity _ hb | count _ hb | putFull _ _ _ hb | readEmpty _ _ _ hb | peek _ _ _ _ hb =>
    exact hb.cnt.ge
  | put _ _ _ _ _ _ _ hc => omega
  | clear hd => simp [Event.isClear, Event.decoded, hd] at hclear
  | get hd => simp [Event.isRead, Event.decoded, hd] at hread

/-- PUT is not legal on CONS, so no event of CONS is a PUT. -/
theorem Event.isPut_cons {e : Event} (hp : e.port = .cons) : e.isPut = false := by
  unfold Event.isPut
  split
  · next b hd =>
    rw [Event.decoded, hp] at hd
    exact absurd ((legalOn_put b _).1 (legalOn_of_decode hd)) (by decide)
  · rfl

/-! ### Stretches whose events are restricted -/

/-- The events of a stretch are the first request's event and those of the rest. -/
theorem eventsSince_of_performOrder {order : List Port} {s u t : State} {e : Event}
    (hu : u.history = s.history ++ [e]) (h : performOrder order u = .next t) :
    eventsSince s t = e :: eventsSince u t := by
  obtain ⟨es, hes, -⟩ := performOrder_ports h
  simp [eventsSince, hes, hu]

/-- The events of a stretch name ports of its order. -/
theorem port_mem_of_mem_eventsSince {order : List Port} {s t : State} {e : Event}
    (h : performOrder order s = .next t) (he : e ∈ eventsSince s t) : e.port ∈ order := by
  obtain ⟨es, hes, hports⟩ := performOrder_ports h
  have hsince : eventsSince s t = es := by simp [eventsSince, hes]
  exact hports ▸ List.mem_map_of_mem (hsince ▸ he)

/-- A property that every change of the block with an event in `Q` keeps holds after every stretch with events
in `Q` only. -/
theorem performOrder_keeps_of_events {P : State → Prop} {Q : Event → Prop}
    (hstep : ∀ p w s t r, BlockChange p w s t r → Q ⟨p, w, r⟩ → P s → P t)
    {order : List Port} {s t : State} (hs : P s) (h : performOrder order s = .next t)
    (hQ : ∀ e ∈ eventsSince s t, Q e) : P t := by
  induction order generalizing s with
  | nil => cases h; exact hs
  | cons p order ih =>
    obtain ⟨u, hu, h⟩ := performOrder_cons h
    obtain ⟨w, r, -, hans, hchange⟩ := performPort_cases hu
    have hhist : u.history = s.history ++ [⟨p, w, r⟩] := by simpa using hans.recorded
    rw [eventsSince_of_performOrder hhist h, List.forall_mem_cons] at hQ
    exact ih (hstep p w s u r hchange hQ.1 hs) h hQ.2

theorem performOrder_cfg {order : List Port} {s t : State} (h : performOrder order s = .next t) :
    t.cfg = s.cfg :=
  performOrder_keeps (P := fun x => x.cfg = s.cfg) (fun _ _ _ hx hstep => (performPort_cfg hstep).trans hx) rfl h

theorem performOrder_cnt_le {order : List Port} {s t : State} (h : performOrder order s = .next t)
    (hput : ∀ e ∈ eventsSince s t, e.isPut = false) : t.cnt ≤ s.cnt :=
  performOrder_keeps_of_events (P := fun x => x.cnt ≤ s.cnt)
    (fun _ _ _ _ _ hchange he hx => (hchange.cnt_le_of_not_put he).trans hx) le_rfl h hput

theorem performOrder_le_cnt {order : List Port} {s t : State} (h : performOrder order s = .next t)
    (hrest : ∀ e ∈ eventsSince s t, e.isRead = false ∧ e.isClear = false) : s.cnt ≤ t.cnt :=
  performOrder_keeps_of_events (P := fun x => s.cnt ≤ x.cnt)
    (fun _ _ _ _ _ hchange he hx => hx.trans (hchange.le_cnt_of_not_read_clear he.1 he.2)) le_rfl h hrest

/-! ### COUNT, and the transfers it speaks of -/

/-- COUNT answers the count, and keeps it. -/
theorem State.pendingOp.performPort_count {p : Port} {s t : State} (hop : s.pendingOp p .count) (hs : s.Bounds)
    (hring : s.wr = (s.rd + s.cnt) % s.cfg.cap) (h : performPort p s = .next t) :
    (t.port p).resp = some ⟨.ok, s.cnt⟩ ∧ t.cnt = s.cnt := by
  obtain ⟨w, hd, hresp, hqueue⟩ := hop.performPort_queuePerform hs hring h
  simp only [queuePerform, hd, s.queue_length] at hresp hqueue
  exact ⟨hresp, by rw [← t.queue_length, hqueue, s.queue_length]⟩

/-- After COUNT and any stretch: the answer was the count as the stretch began, and the registers are in range
with the same CAP. -/
theorem State.pendingOp.performOrder_after_count {p : Port} {order : List Port} {s s1 t : State} {c : Nat}
    (hop : s.pendingOp p .count) (hinv : s.Inv) (hs1 : performPort p s = .next s1)
    (hc : (s1.port p).resp = some ⟨.ok, c⟩) (ht : performOrder order s1 = .next t) :
    s1.cnt = c ∧ t.Bounds ∧ t.wr = (t.rd + t.cnt) % t.cfg.cap ∧ t.cfg = s.cfg := by
  obtain ⟨hresp, hcnt⟩ := hop.performPort_count hinv.bounds hinv.ring hs1
  obtain rfl : s.cnt = c := by simpa [hc, eq_comm] using hresp
  obtain ⟨hbounds, hring⟩ := performOrder_bounds_ring (performPort_bounds hinv.bounds hs1)
    (performPort_ring hinv.bounds hinv.ring hs1) ht
  exact ⟨hcnt, hbounds, hring, (performOrder_cfg ht).trans (performPort_cfg hs1)⟩

/-- PUT answers OK while there is room. -/
theorem State.pendingOp.performPort_put {s t : State} {b : Byte} (hop : s.pendingOp .prod (.put b))
    (hs : s.Bounds) (hring : s.wr = (s.rd + s.cnt) % s.cfg.cap) (hroom : s.cnt < s.cfg.cap)
    (h : performPort .prod s = .next t) : t.prod.resp = some ⟨.ok, 0⟩ := by
  obtain ⟨w, hd, hresp, -⟩ := hop.performPort_queuePerform hs hring h
  simpa [queuePerform, hd, queuePut, s.queue_length, hroom.ne] using hresp

/-- GET and PEEK answer OK while there is a byte: both answer the head. -/
theorem State.pendingOp.performPort_read {i : Instr} {s t : State} (hop : s.pendingOp .cons i)
    (hi : i = .get ∨ i = .peek) (hs : s.Bounds) (hring : s.wr = (s.rd + s.cnt) % s.cfg.cap) (hne : s.cnt ≠ 0)
    (h : performPort .cons s = .next t) : ∃ v, t.cons.resp = some ⟨.ok, v⟩ := by
  obtain ⟨q, hq⟩ := State.queue_head hs.rd_lt hne
  have hresp : t.cons.resp = some (queueGet s.queue).1 := by
    rcases hi with rfl | rfl
    · exact hop.performPort_get hs hring h
    · exact (hop.performPort_peek hs hring h).1
  exact ⟨(s.memRead s.rd).toNat, by rw [hresp, hq, queueGet]⟩

/-- Settles O50: COUNT answers the count, which only a PUT raises, so the next PUT finds room; and CONS, which
cannot PUT, never raises it. -/
theorem producerSideGuarantee : Obligations.ProducerSideGuarantee := by
  refine ⟨fun order s s1 t u c b hinv hcount hs1 hc hlt ht hput hop hu => ?_, fun order s t hcons ht => ?_⟩
  · obtain ⟨hcnt, hbounds, hring, hcfg⟩ := hcount.performOrder_after_count hinv hs1 hc ht
    have hroom : t.cnt < t.cfg.cap :=
      calc t.cnt ≤ s1.cnt := performOrder_cnt_le ht hput
        _ = c := hcnt
        _ < s.cfg.cap := hlt
        _ = t.cfg.cap := by rw [hcfg]
    exact hop.performPort_put hbounds hring hroom hu
  · have hcnt : t.cnt ≤ s.cnt := performOrder_cnt_le ht fun e he =>
      Event.isPut_cons (hcons _ (port_mem_of_mem_eventsSince ht he))
    rw [performOrder_cfg ht]
    exact Nat.sub_le_sub_left hcnt _

/-- Settles O51: COUNT answers the count, which only a GET and a CLEAR lower, so the next GET or PEEK finds a
byte. -/
theorem consumerSideGuarantee : Obligations.ConsumerSideGuarantee := by
  intro order i s s1 t u c hinv hcount hs1 hc hpos ht hrest hi hop hu
  obtain ⟨hcnt, hbounds, hring, -⟩ := hcount.performOrder_after_count hinv hs1 hc ht
  have hbyte : 0 < t.cnt :=
    calc 0 < c := hpos
      _ = s1.cnt := hcnt.symm
      _ ≤ t.cnt := performOrder_le_cnt ht hrest
  exact hop.performPort_read hi hbounds hring hbyte.ne' hu

end Sys2Proof.Machine

/-! PROOFS. The invariant of a state between two steps (10 R28 to R31, R35, R36): it holds at launch, every
performed request keeps it, and it makes every pending request performable (40 R87). -/

namespace Sys2Proof.Machine

/-! ### Storage and live window under a performed request -/

/-- Only a PUT stores, and only at the write index (10 R27). -/
theorem BlockChange.buf_cases {p : Port} {w : Request} {s t : State} {r : Response} (h : BlockChange p w s t r) :
    t.buf = s.buf ∨ ∃ b, t.buf = s.buf.write s.wr b := by
  cases h with
  | illegal _ hb | capacity _ hb | count _ hb | putFull _ _ _ hb | readEmpty _ _ _ hb | peek _ _ _ _ hb =>
    exact .inl hb.buf
  | clear _ hb | get _ _ _ _ hb => exact .inl hb
  | put _ _ _ _ hb => exact .inr ⟨_, hb⟩

theorem State.liveWindow_empty {s : State} (h : s.cnt = 0) : s.liveWindow = [] := by
  simp [State.liveWindow, h]

theorem State.liveWindow_congr {s t : State} (hcfg : t.cfg = s.cfg) (hr : t.rd = s.rd) (hc : t.cnt = s.cnt) :
    t.liveWindow = s.liveWindow := by
  simp [State.liveWindow, hcfg, hr, hc]

/-- PUT adds the slot it writes at the end of the live window. -/
theorem State.liveWindow_put {s t : State} (hring : s.wr = (s.rd + s.cnt) % s.cfg.cap) (hcfg : t.cfg = s.cfg)
    (hr : t.rd = s.rd) (hc : t.cnt = s.cnt + 1) : t.liveWindow = s.liveWindow ++ [s.wr] := by
  simp [State.liveWindow, hcfg, hr, hc, List.range_succ, hring]

/-- GET takes the slot it reads from the front of the live window. -/
theorem State.liveWindow_get {s t : State} (hrd : s.rd < s.cfg.cap) (hne : s.cnt ≠ 0) (hcfg : t.cfg = s.cfg)
    (hr : t.rd = s.inc s.rd) (hc : t.cnt = s.cnt - 1) : s.liveWindow = s.rd :: t.liveWindow := by
  have hcnt : s.cnt = t.cnt + 1 := by omega
  have hslot : ∀ k, (s.rd + (k + 1)) % s.cfg.cap = (t.rd + k) % t.cfg.cap := fun k => by
    rw [hr, hcfg, s.inc_eq hrd, Nat.mod_add_mod, Nat.add_right_comm, Nat.add_assoc]
  simp [State.liveWindow, hcnt, List.range_succ_eq_map, Nat.mod_eq_of_lt hrd, hslot]

theorem Memory.read?_write_isSome {m : Memory} {i j : Nat} {v : Byte}
    (h : i = j ∨ (m.read? j).isSome = true) : ((m.write i v).read? j).isSome = true := by
  rw [Memory.read?_write]
  split
  · rfl
  · exact h.resolve_left ‹_›

/-- Every slot of the live window stays written (10 R31): PUT writes the one slot it adds. -/
theorem BlockChange.liveWritten {p : Port} {w : Request} {s t : State} {r : Response} (h : BlockChange p w s t r)
    (hcfg : t.cfg = s.cfg) (hrd : s.rd < s.cfg.cap) (hring : s.wr = (s.rd + s.cnt) % s.cfg.cap)
    (hlive : ∀ i ∈ s.liveWindow, (s.buf.read? i).isSome = true) :
    ∀ i ∈ t.liveWindow, (t.buf.read? i).isSome = true := by
  cases h with
  | illegal _ hb | capacity _ hb | count _ hb | putFull _ _ _ hb | readEmpty _ _ _ hb | peek _ _ _ _ hb =>
    rwa [State.liveWindow_congr hcfg hb.rd hb.cnt, hb.buf]
  | clear _ _ _ _ hc => simp [State.liveWindow_empty hc]
  | put _ _ _ _ hb hr _ hc =>
    intro i hi
    rw [hb]
    rw [State.liveWindow_put hring hcfg hr hc, List.mem_append, List.mem_singleton] at hi
    exact Memory.read?_write_isSome (hi.symm.imp Eq.symm (hlive i))
  | get _ _ he _ hb hr _ hc =>
    intro i hi
    rw [hb]
    exact hlive i (by rw [State.liveWindow_get hrd he hcfg hr hc]; exact List.mem_cons_of_mem _ hi)

/-! ### The ports under a performed request -/

/-- A performed request advances its port and leaves the other: what both ports satisfy stays so when the port
advanced satisfies it. -/
theorem AnsweredWith.forall_port {s t : State} {p : Port} {w : Request} {r : Response} {P : PortState → Prop}
    (h : AnsweredWith (s.accept p w) t w r) (hs : ∀ q, P (s.port q))
    (hp : P ⟨(s.port p).prog, (s.port p).pi + 1, none, some r⟩) (q : Port) : P (t.port q) := by
  rcases Port.eq_or_other p q with rfl | rfl
  · have hans := h.answered
    simp only [State.accept_turn, State.accept_same] at hans
    rwa [hans]
  · have hother : t.port p.other = s.port p.other := by simpa using h.otherPort
    rw [hother]
    exact hs _

/-! ### The invariant -/

theorem performPort_inv {p : Port} {s t : State} (hs : s.Inv) (h : performPort p s = .next t) : t.Inv := by
  obtain ⟨w, r, hw, hans, hchange⟩ := performPort_cases h
  have hcfg := performPort_cfg h
  refine ⟨performPort_bounds hs.bounds h, performPort_ring hs.bounds hs.ring h, ?bufWf, ?bufInRange,
    hchange.liveWritten hcfg hs.bounds.rd_lt hs.ring hs.liveWritten,
    hans.forall_port (P := fun ps => ps.pi ≤ ps.prog.length) hs.piLe (PortState.pending_lt hw),
    hans.forall_port (P := fun ps => ps.inFlight = none) hs.idle rfl⟩
  case bufWf =>
    rcases hchange.buf_cases with hb | ⟨b, hb⟩ <;> rw [hb]
    · exact hs.bufWf
    · exact Memory.wf_write _ _ hs.bufWf
  case bufInRange =>
    rw [hcfg]
    rcases hchange.buf_cases with hb | ⟨b, hb⟩ <;> rw [hb]
    · exact hs.bufInRange
    · exact Memory.inRange_write _ hs.bufInRange hs.bounds.wr_lt

/-- The arbiter's bookkeeping is no part of the invariant. -/
theorem State.Inv.granted {s : State} (hs : s.Inv) : s.granted.Inv :=
  ⟨⟨hs.bounds.cnt_le, hs.bounds.rd_lt, hs.bounds.wr_lt⟩, hs.ring, hs.bufWf, hs.bufInRange, hs.liveWritten,
    fun p => by simpa using hs.piLe p, fun p => by simpa using hs.idle p⟩

theorem step_inv {s t : State} (hs : s.Inv) (h : step s = .next t) : t.Inv := by
  rcases step_next h with ⟨-, rfl⟩ | ⟨p, -, hp⟩
  · exact hs
  · exact performPort_inv hs.granted hp

/-- Settles O34, by `step_inv`: a step is the idle one or a performed request. -/
theorem everyStepKeepsTheInvariant : Obligations.EveryStepKeepsTheInvariant :=
  fun _ _ => step_inv

theorem launched_inv (c : Config) (n : Nat) (pp cp : List Request) : (launched c n pp cp).Inv where
  bounds := ⟨Nat.zero_le _, c.cap_pos, c.cap_pos⟩
  ring := (Nat.zero_mod _).symm
  bufWf := rfl
  bufInRange := rfl
  liveWritten := by simp [State.liveWindow_empty (s := launched c n pp cp) rfl]
  piLe p := by cases p <;> exact Nat.zero_le _
  idle p := by cases p <;> rfl

/-- A reset state is a launched one whose clients have nothing to issue. -/
theorem launched_nil (c : Config) (n : Nat) : launched c n [] [] = State.resetWith c n := rfl

theorem State.resetWith_inv (c : Config) (n : Nat) : (State.resetWith c n).Inv :=
  launched_nil c n ▸ launched_inv c n [] []

/-- Settles O33: reset is a launch without clients. -/
theorem invariantHoldsAtLaunch : Obligations.InvariantHoldsAtLaunch :=
  ⟨State.resetWith_inv _ _, launched_inv⟩

/-! ### No request waits for the buffer (40 R87) -/

theorem State.Bounds.performPort_exists {s : State} {p : Port} (hs : s.Bounds) (hp : s.isPending p = true) :
    ∃ t, performPort p s = .next t := by
  obtain ⟨w, hw⟩ := (s.isPending_iff p).1 hp
  exact Machine.performPort_exists hw hs.rd_lt hs.wr_lt

/-- Settles O29: a pending request is performable wherever the index registers name slots. -/
theorem everyPendingRequestIsPerformable : Obligations.EveryPendingRequestIsPerformable :=
  fun _ _ hs hp => hs.performPort_exists hp

@[simp] theorem State.isPending_granted (s : State) (p : Port) : s.granted.isPending p = s.isPending p := by
  simp [State.isPending]

theorem step_of_nextPort {s : State} {p : Port} (h : s.nextPort = some p) : step s = performPort p s.granted := by
  simp [step, h]

theorem step_of_idle {s : State} (h : s.nextPort = none) : step s = .next s := by
  simp [step, h]

/-- Settles O35: with nothing pending the step is idle, and the request picked is performable. -/
theorem stepNeverStops : Obligations.StepNeverStops := by
  intro s hs
  cases hn : s.nextPort with
  | none => exact ⟨s, step_of_idle hn⟩
  | some p =>
    obtain ⟨t, ht⟩ := hs.granted.bounds.performPort_exists (p := p) (by simpa using State.nextPort_pending hn)
    exact ⟨t, (step_of_nextPort hn).trans ht⟩

/-- Settles O30, by `performPort_cases`. -/
theorem performCompletesOneRequest : Obligations.PerformCompletesOneRequest := by
  intro p s t h
  obtain ⟨w, r, hw, hans, -⟩ := performPort_cases h
  exact ⟨w, r, hw, hans⟩

end Sys2Proof.Machine

/-! PROOFS. What the history of a run says of its state (10 R39, 20 R49, 40 R85), and that clients with legal
requests only never set the fault mark (60 R163). -/

namespace Sys2Proof.Machine

/-! ### The history -/

theorem requestsPerformed_append_same (p : Port) (es : List Event) (w : Request) (r : Response) :
    requestsPerformed p (es ++ [⟨p, w, r⟩]) = requestsPerformed p es ++ [w] := by
  simp [requestsPerformed]

theorem requestsPerformed_append_other (p : Port) (es : List Event) (w : Request) (r : Response) :
    requestsPerformed p.other (es ++ [⟨p, w, r⟩]) = requestsPerformed p.other es := by
  simp [requestsPerformed, (Port.other_ne p).symm]

theorem lastResponse_append_same (p : Port) (es : List Event) (w : Request) (r : Response) :
    lastResponse p (es ++ [⟨p, w, r⟩]) = some r := by
  simp [lastResponse]

theorem lastResponse_append_other (p : Port) (es : List Event) (w : Request) (r : Response) :
    lastResponse p.other (es ++ [⟨p, w, r⟩]) = lastResponse p.other es := by
  simp [lastResponse, (Port.other_ne p).symm]

/-- The requests issued once the pending one has been performed. -/
theorem PortState.take_succ_of_pending {ps : PortState} {w : Request} (h : ps.pending = some w) :
    ps.prog.take (ps.pi + 1) = ps.prog.take ps.pi ++ [w] := by
  have hget : ps.prog[ps.pi]? = some w := h
  rw [List.take_add_one, hget, Option.toList_some]

theorem performPort_historyInv {p : Port} {s t : State} (hs : s.HistoryInv) (h : performPort p s = .next t) :
    t.HistoryInv := by
  obtain ⟨w, r, hw, hans, hchange⟩ := performPort_cases h
  have hhist : t.history = s.history ++ [⟨p, w, r⟩] := by simpa using hans.recorded
  have hport : t.port p = ⟨(s.port p).prog, (s.port p).pi + 1, none, some r⟩ := by simpa using hans.answered
  have hother : t.port p.other = s.port p.other := by simpa using hans.otherPort
  refine ⟨fun q => ?issueOrder, ?mark, fun q => ?delivered⟩
  case issueOrder =>
    rcases Port.eq_or_other p q with rfl | rfl
    · rw [hhist, hport, requestsPerformed_append_same, hs.issueOrder, PortState.take_succ_of_pending hw]
    · rw [hhist, hother, requestsPerformed_append_other, hs.issueOrder]
  case mark => simp [hchange.faultMark_eq, hhist, hs.mark]
  case delivered =>
    rcases Port.eq_or_other p q with rfl | rfl
    · rw [hhist, hport, lastResponse_append_same]
    · rw [hhist, hother, lastResponse_append_other, hs.delivered]

/-- The arbiter's bookkeeping is no part of the history. -/
theorem State.HistoryInv.granted {s : State} (hs : s.HistoryInv) : s.granted.HistoryInv :=
  ⟨fun p => by simpa using hs.issueOrder p, hs.mark, fun p => by simpa using hs.delivered p⟩

theorem step_historyInv {s t : State} (hs : s.HistoryInv) (h : step s = .next t) : t.HistoryInv := by
  rcases step_next h with ⟨-, rfl⟩ | ⟨p, -, hp⟩
  · exact hs
  · exact performPort_historyInv hs.granted hp

theorem launched_historyInv (c : Config) (n : Nat) (pp cp : List Request) : (launched c n pp cp).HistoryInv where
  issueOrder p := by cases p <;> rfl
  mark := rfl
  delivered p := by cases p <;> rfl

/-- Settles O36: at launch nothing has been performed, and every performed request adds its one event. -/
theorem historyAccountsForTheRun : Obligations.HistoryAccountsForTheRun :=
  ⟨launched_historyInv, fun _ _ _ => step_historyInv⟩

/-! ### Legal clients (60 R163) -/

/-- The request list of every port holds legal requests only. -/
theorem State.wellFormedClients_iff (s : State) :
    s.wellFormedClients = true ↔ ∀ p, requestsWellFormed p (s.port p).prog = true := by
  simp only [State.wellFormedClients, Bool.and_eq_true]
  exact ⟨fun h p => by cases p; exacts [h.1, h.2], fun h => ⟨h .prod, h .cons⟩⟩

theorem PortState.pending_mem {ps : PortState} {w : Request} (h : ps.pending = some w) : w ∈ ps.prog :=
  List.mem_of_getElem? h

/-- A pending request of a client with legal requests only is not rejected. -/
theorem State.not_illegal_of_wellFormedClients {s : State} {p : Port} {w : Request}
    (hs : s.wellFormedClients = true) (hw : (s.port p).pending = some w) :
    ¬ ∃ reason, decode p w = .illegal reason := by
  rintro ⟨reason, hd⟩
  have hlegal := List.all_eq_true.1 (s.wellFormedClients_iff.1 hs p) w (PortState.pending_mem hw)
  simp [Request.wellFormedOn, hd] at hlegal

theorem performPort_prog {p : Port} {s t : State} (h : performPort p s = .next t) (q : Port) :
    (t.port q).prog = (s.port q).prog := by
  obtain ⟨w, r, -, hport, hother, -⟩ := performPort_frame h
  rcases Port.eq_or_other p q with rfl | rfl
  · rw [hport]
  · rw [hother]

/-- A clear mark, and clients with legal requests only, stay so. -/
theorem performPort_clean {p : Port} {s t : State} (hs : s.wellFormedClients = true) (hm : s.faultMark = false)
    (h : performPort p s = .next t) : t.wellFormedClients = true ∧ t.faultMark = false := by
  obtain ⟨w, r, hw, -, hchange⟩ := performPort_cases h
  have hstatus : r.status ≠ .illegal := fun hst =>
    State.not_illegal_of_wellFormedClients hs hw (hchange.status_illegal_iff.1 hst)
  refine ⟨t.wellFormedClients_iff.2 fun q => ?_, by simp [hchange.faultMark_eq, hm, hstatus]⟩
  rw [performPort_prog h]
  exact s.wellFormedClients_iff.1 hs q

theorem step_clean {s t : State} (hs : s.wellFormedClients = true) (hm : s.faultMark = false)
    (h : step s = .next t) : t.wellFormedClients = true ∧ t.faultMark = false := by
  rcases step_next h with ⟨-, rfl⟩ | ⟨p, -, hp⟩
  · exact ⟨hs, hm⟩
  · exact performPort_clean (s := s.granted) hs hm hp

/-- A run that answers a next state goes through the next state of its first step. -/
theorem State.runSteps_next {s t : State} {n : Nat} (h : s.runSteps (n + 1) = .next t) :
    ∃ u, step s = .next u ∧ u.runSteps n = .next t := by
  rw [State.runSteps_succ] at h
  split at h
  · exact ⟨_, ‹_›, h⟩
  all_goals cases h

theorem State.runSteps_of_step {s t : State} (h : step s = .next t) (n : Nat) :
    s.runSteps (n + 1) = t.runSteps n := by
  rw [State.runSteps_succ, h]

/-- Settles O37, by induction on the number of steps. -/
theorem legalClientsNeverSetTheFaultMark : Obligations.LegalClientsNeverSetTheFaultMark := by
  intro n s t hs hclean h
  simp only [State.clean, Bool.not_eq_true'] at hclean ⊢
  induction n generalizing s with
  | zero => cases h; exact ⟨hclean, hs⟩
  | succ n ih =>
    obtain ⟨u, hu, h⟩ := State.runSteps_next h
    obtain ⟨hs', hclean'⟩ := step_clean hs hclean hu
    exact ih u hs' h hclean'

end Sys2Proof.Machine

/-! PROOFS. The block as a bounded list of bytes (10 R30), over perform orders: they are linearizable (20 R49),
and the unread bytes are those PUT since the last CLEAR (10 R31). -/

namespace Sys2Proof.Machine

/-- Settles O38, by `BlockChange.queuePerform_eq`. -/
theorem blockRefinesABoundedQueue : Obligations.BlockRefinesABoundedQueue := by
  intro p s t hinv h
  obtain ⟨w, r, hw, hans, hchange⟩ := performPort_cases h
  have hq := hchange.queuePerform_eq (performPort_cfg h) (by simpa using hans.launch) hinv.bounds hinv.ring
  have hresp : (t.port p).resp = some r := by simpa using congrArg PortState.resp hans.answered
  exact ⟨w, hw, by rw [hq], by rw [hq, hresp]⟩

/-! ### Linearizability (20 R49) -/

theorem requestsPerformed_cons_same (p : Port) (w : Request) (r : Response) (es : List Event) :
    requestsPerformed p (⟨p, w, r⟩ :: es) = w :: requestsPerformed p es := by
  simp [requestsPerformed]

theorem requestsPerformed_cons_other (p : Port) (w : Request) (r : Response) (es : List Event) :
    requestsPerformed p.other (⟨p, w, r⟩ :: es) = requestsPerformed p.other es := by
  simp [requestsPerformed, (Port.other_ne p).symm]

/-- What a port has still to issue: the pending request, and what it has to issue after it. -/
theorem PortState.drop_of_pending {ps : PortState} {w : Request} (h : ps.pending = some w) :
    ps.prog.drop ps.pi = w :: ps.prog.drop (ps.pi + 1) := by
  obtain ⟨hlt, hget⟩ := List.getElem?_eq_some_iff.1 (show ps.prog[ps.pi]? = some w from h)
  rw [List.drop_eq_getElem_cons hlt, hget]

/-- A port's requests among the events of a stretch are the first of those it had to issue: the first
performed was the pending one. -/
theorem AnsweredWith.requestsPerformed_prefix {p : Port} {w : Request} {s t : State} {r : Response}
    (hans : AnsweredWith (s.accept p w) t w r) (hw : (s.port p).pending = some w) {es : List Event}
    (hes : ∀ q, requestsPerformed q es <+: (t.port q).prog.drop (t.port q).pi) (q : Port) :
    requestsPerformed q (⟨p, w, r⟩ :: es) <+: (s.port q).prog.drop (s.port q).pi := by
  have hport : t.port p = ⟨(s.port p).prog, (s.port p).pi + 1, none, some r⟩ := by simpa using hans.answered
  have hother : t.port p.other = s.port p.other := by simpa using hans.otherPort
  rcases Port.eq_or_other p q with rfl | rfl
  · rw [requestsPerformed_cons_same, PortState.drop_of_pending hw, List.prefix_cons_inj]
    simpa [hport] using hes q
  · rw [requestsPerformed_cons_other, ← hother]
    exact hes _

/-- Settles O39, by induction on the perform order: the first request of the list is the one performed first. -/
theorem performOrdersAreLinearizable : Obligations.PerformOrdersAreLinearizable := by
  intro order s t hinv h
  induction order generalizing s with
  | nil =>
    cases h
    exact ⟨[], rfl, fun p => List.nil_prefix, by simp [queueRun], rfl⟩
  | cons p order ih =>
    obtain ⟨u, hu, h⟩ := performOrder_cons h
    obtain ⟨w, r, hw, hans, hchange⟩ := performPort_cases hu
    have hcfg := performPort_cfg hu
    have hq := hchange.queuePerform_eq hcfg (by simpa using hans.launch) hinv.bounds hinv.ring
    obtain ⟨rs, hports, hissue, hhist, hqueue⟩ := ih u (performPort_inv hinv hu) h
    rw [hcfg] at hissue hhist hqueue
    have hrun : queueRun s.cfg.cap s.queue ((p, w) :: rs) =
        (⟨p, w, r⟩ :: (queueRun s.cfg.cap u.queue rs).1, (queueRun s.cfg.cap u.queue rs).2) := by
      simp only [queueRun, hq]
    have hrecorded : u.history = s.history ++ [⟨p, w, r⟩] := by simpa using hans.recorded
    refine ⟨(p, w) :: rs, by rw [List.map_cons, hports], fun q => ?_, ?_, ?_⟩ <;> rw [hrun]
    · exact hans.requestsPerformed_prefix hw hissue q
    · rw [hhist, hrecorded, List.append_assoc, List.singleton_append]
    · exact hqueue

/-! ### Counting the bytes (95 W5) -/

/-- Settles O41: the lengths of the two sides of the FIFO contract. -/
theorem countIsPutsLessGets : Obligations.CountIsPutsLessGets := by
  intro order s t hinv h hclear
  have hlength := congrArg List.length (fifoContract order s t hinv h hclear)
  simp only [List.length_append, State.queue_length] at hlength
  omega

/-! ### Since the last CLEAR (10 R31, 70 R197) -/

/-- Before a CLEAR still to come, an event does not count. -/
theorem sinceLastClear_cons_of_clear {e : Event} {es : List Event} (h : ∃ e' ∈ es, e'.isClear = true) :
    sinceLastClear (e :: es) = sinceLastClear es := by
  have hany : (e :: es).any Event.isClear = true := by simpa using Or.inr h
  rw [sinceLastClear, if_pos hany]

theorem sinceLastClear_of_no_clear {es : List Event} (h : ∀ e ∈ es, e.isClear = false) :
    sinceLastClear es = es := by
  cases es with
  | nil => rfl
  | cons e es =>
    have hany : ¬ (e :: es).any Event.isClear = true := by simpa using h
    rw [sinceLastClear, if_neg hany]

theorem sinceLastClear_clear_cons {e : Event} {es : List Event} (he : e.isClear = true)
    (h : ∀ e' ∈ es, e'.isClear = false) : sinceLastClear (e :: es) = es := by
  rw [sinceLastClear, if_pos (by simp [he]), sinceLastClear_of_no_clear h]

theorem BlockChange.of_clear {p : Port} {w : Request} {s t : State} {r : Response} (h : BlockChange p w s t r)
    (hop : decode p w = .op .clear) : t.rd = 0 ∧ t.wr = 0 ∧ t.cnt = 0 ∧ t.buf = s.buf := by
  cases h with
  | clear _ hb hr hw hc => exact ⟨hr, hw, hc, hb⟩
  | illegal hd | capacity hd | count hd | putFull hd | put hd | get hd | peek hd => simp [hop] at hd
  | readEmpty hd => simp [hop] at hd

theorem BlockChange.cnt_of_isClear {p : Port} {w : Request} {s t : State} {r : Response} (h : BlockChange p w s t r)
    (hclear : Event.isClear ⟨p, w, r⟩ = true) : t.cnt = 0 := by
  obtain ⟨-, -, hcnt, -⟩ := h.of_clear (of_decide_eq_true hclear)
  exact hcnt

/-- The bytes conserved, told of the events since the first state. -/
theorem performOrder_conserves_eventsSince {order : List Port} {s t : State} (hs : s.Bounds)
    (hring : s.wr = (s.rd + s.cnt) % s.cfg.cap) (h : performOrder order s = .next t)
    (hclear : ∀ e ∈ eventsSince s t, e.isClear = false) :
    s.queue ++ acceptedBytes (eventsSince s t) = receivedBytes (eventsSince s t) ++ t.queue := by
  obtain ⟨es, hes, hconserves⟩ := performOrder_conserves hs hring h
  have hsince : eventsSince s t = es := by simp [eventsSince, hes]
  rw [hsince] at hclear ⊢
  exact hconserves hclear

/-- After a CLEAR, the bytes accepted since the last one are those returned since it and then those queued: the
last CLEAR leaves the queue empty, and the stretch after it conserves the bytes. -/
theorem performOrder_conserves_sinceLastClear {order : List Port} {s t : State} (hs : s.Bounds)
    (hring : s.wr = (s.rd + s.cnt) % s.cfg.cap) (h : performOrder order s = .next t)
    (hclear : ∃ e ∈ eventsSince s t, e.isClear = true) :
    acceptedBytes (sinceLastClear (eventsSince s t)) =
      receivedBytes (sinceLastClear (eventsSince s t)) ++ t.queue := by
  induction order generalizing s with
  | nil =>
    cases h
    simp [eventsSince] at hclear
  | cons p order ih =>
    obtain ⟨u, hu, h⟩ := performOrder_cons h
    obtain ⟨w, r, -, hans, hchange⟩ := performPort_cases hu
    have hus := performPort_bounds hs hu
    have huring := performPort_ring hs hring hu
    have hhist : u.history = s.history ++ [⟨p, w, r⟩] := by simpa using hans.recorded
    rw [eventsSince_of_performOrder hhist h] at hclear ⊢
    by_cases hlater : ∃ e ∈ eventsSince u t, e.isClear = true
    · rw [sinceLastClear_cons_of_clear hlater]
      exact ih hus huring h hlater
    · have hfirst : Event.isClear ⟨p, w, r⟩ = true := by simpa [hlater] using hclear
      have hrest : ∀ e ∈ eventsSince u t, e.isClear = false := by simpa using hlater
      have hempty : u.queue = [] := State.queue_empty (hchange.cnt_of_isClear hfirst)
      rw [sinceLastClear_clear_cons hfirst hrest]
      simpa [hempty] using performOrder_conserves_eventsSince hus huring h hrest

/-- From an empty queue it makes no difference whether there was a CLEAR. -/
theorem performOrder_conserves_of_empty {order : List Port} {s t : State} (hs : s.Bounds)
    (hring : s.wr = (s.rd + s.cnt) % s.cfg.cap) (hempty : s.queue = []) (h : performOrder order s = .next t) :
    acceptedBytes (sinceLastClear (eventsSince s t)) =
      receivedBytes (sinceLastClear (eventsSince s t)) ++ t.queue := by
  by_cases hclear : ∃ e ∈ eventsSince s t, e.isClear = true
  · exact performOrder_conserves_sinceLastClear hs hring h hclear
  · have hnone : ∀ e ∈ eventsSince s t, e.isClear = false := by simpa using hclear
    rw [sinceLastClear_of_no_clear hnone]
    simpa [hempty] using performOrder_conserves_eventsSince hs hring h hnone

theorem performOrder_inv {order : List Port} {s t : State} (hs : s.Inv) (h : performOrder order s = .next t) :
    t.Inv :=
  performOrder_keeps (P := State.Inv) (fun _ _ _ => performPort_inv) hs h

/-- Settles O42: at launch the history and the queue are empty; the written slots are part of the invariant. -/
theorem unreadBytesWerePutSinceTheLastClear : Obligations.UnreadBytesWerePutSinceTheLastClear := by
  intro c n pp cp order t h
  have hinv := launched_inv c n pp cp
  have hbytes := performOrder_conserves_of_empty hinv.bounds hinv.ring (State.queue_empty rfl) h
  have hsince : eventsSince (launched c n pp cp) t = t.history := List.drop_zero
  rw [hsince] at hbytes
  exact ⟨hbytes, (performOrder_inv hinv h).liveWritten⟩

theorem sinceLastClear_subset (es : List Event) : sinceLastClear es ⊆ es := by
  induction es with
  | nil => exact List.Subset.refl _
  | cons e es ih =>
    rw [sinceLastClear]
    split
    · exact fun x hx => List.mem_cons_of_mem _ (ih hx)
    · exact List.Subset.refl _

/-- Settles O52: while only PROD acts no byte is returned, so the queue is what was accepted since the last
CLEAR, and GET answers its head. -/
theorem getAfterClearsAnswersTheFirstBytePutSince : Obligations.GetAfterClearsAnswersTheFirstBytePutSince := by
  intro order s t u hinv hprod h hclear hget hu
  have htinv := performOrder_inv hinv h
  have hreceived : receivedBytes (sinceLastClear (eventsSince s t)) = [] :=
    List.filterMap_eq_nil_iff.2 fun e he =>
      Event.received_prod (hprod _ (port_mem_of_mem_eventsSince h (sinceLastClear_subset _ he)))
  have hqueue := performOrder_conserves_sinceLastClear hinv.bounds hinv.ring h hclear
  rw [hreceived, List.nil_append] at hqueue
  rw [hget.performPort_get htinv.bounds htinv.ring hu, hqueue]

/-! ### Reset and CLEAR (70 R191) -/

/-- What a pending request of a known operation does to the block. -/
theorem State.pendingOp.blockChange {p : Port} {i : Instr} {s t : State} (hop : s.pendingOp p i)
    (h : performPort p s = .next t) :
    ∃ w r, decode p w = .op i ∧ (t.port p).resp = some r ∧ BlockChange p w s t r := by
  obtain ⟨w, hw, hd⟩ := hop
  obtain ⟨w', r, hw', hans, hchange⟩ := performPort_cases h
  obtain rfl : w = w' := Option.some.inj (hw.symm.trans hw')
  exact ⟨w, r, hd, by simpa using congrArg PortState.resp hans.answered, hchange⟩

/-- A launch over the storage another left, and a launch with a draw of its own, differ in stale bytes
alone: both queues are empty. -/
theorem launchedOver_sameButStale (t : State) (n : Nat) (pp cp : List Request) :
    SameButStale (launchedOver t pp cp) (launched t.cfg n pp cp) where
  queue := (State.queue_empty rfl).trans (State.queue_empty rfl).symm
  cfg := rfl
  rd := rfl
  wr := rfl
  cnt := rfl
  prod := rfl
  cons := rfl
  history := rfl
  faultMark := rfl

/-- Settles O44: CLEAR's effect, and stale bytes influence nothing of a run. -/
theorem resetAndClearGiveTheSameResponses : Obligations.ResetAndClearGiveTheSameResponses := by
  intro p s t hinv hop h
  obtain ⟨w, r, hd, -, hchange⟩ := hop.blockChange h
  refine ⟨hchange.of_clear hd, fun n pp cp order u hu => ?_⟩
  have hsame := launchedOver_sameButStale t n pp cp
  have hbounds : (launchedOver t pp cp).Bounds := ⟨Nat.zero_le _, t.cfg.cap_pos, t.cfg.cap_pos⟩
  obtain ⟨v, hv, huv⟩ := hsame.performOrder hbounds (Nat.zero_mod _).symm hu
  exact ⟨v, hv, huv.history, huv.prod, huv.cons, huv.queue⟩

end Sys2Proof.Machine

/-! PROOFS. The encoding: canonical words and the decoder (30 R60 to R64, R70), the opcode table, the assembler's
lines (30 R71), the response word (30 R65 to R68), and the widths (00 R7). -/

namespace Sys2Proof

/-! ### Canonical words and the decoder -/

theorem canonicalWord (i : Instr) : Laws.CanonicalWord.Statement i := by
  cases i with
  | clear => exact Laws.CanonicalWord.clear
  | capacity => exact Laws.CanonicalWord.capacity
  | put b => exact Laws.CanonicalWord.put b
  | get => exact Laws.CanonicalWord.get
  | peek => exact Laws.CanonicalWord.peek
  | count => exact Laws.CanonicalWord.count

@[simp] theorem decodeOp_encode (i : Instr) : decodeOp (encode i) = some i := by
  obtain ⟨-, -, hop⟩ := canonicalWord i
  exact hop

theorem decode_encode (i : Instr) (p : Port) :
    decode p (encode i) = if i.legalOn p then .op i else .illegal .wrongPort := by
  simp [decode]

/-- A decoded operation is the one the word selects, on a port where it is legal (30 R70). -/
theorem decode_eq_op_iff {p : Port} {w : Request} {i : Instr} :
    decode p w = .op i ↔ decodeOp w = some i ∧ i.legalOn p = true := by
  unfold decode
  cases decodeOp w with
  | none => simp
  | some j =>
    by_cases hl : j.legalOn p = true
    · simp only [hl, if_true, Decoded.op.injEq, Option.some.injEq]
      exact ⟨fun h => ⟨h, h ▸ hl⟩, And.left⟩
    · simp only [hl, Bool.false_eq_true, if_false, reduceCtorEq, Option.some.injEq, false_iff]
      rintro ⟨rfl, hi⟩
      exact hl hi

/-- PUT takes its byte from the word's `wdata` field. -/
theorem wdataField_of_decodeOp_put {w : Request} {b : Byte} (h : decodeOp w = some (.put b)) :
    wdataField w = b := by
  unfold decodeOp at h
  split at h <;> cases h
  rfl

/-- PUT's word has no bit beside its two fields, so it is the canonical one. -/
theorem encode_put_of_decodeOp {w : Request} {b : Byte} (h : decodeOp w = some (.put b)) :
    encode (.put b) = w := by
  have hop := opField_of_decodeOp h
  have hdata := wdataField_of_decodeOp_put h
  calc encode (.put b) = opField w ++ wdataField w := by rw [hop, hdata]; rfl
    _ = w := opField_wdataField w

/-- Settles O1: what a canonical word decodes to, and what a decoded word holds. -/
theorem encodeThenDecodeGivesTheOperation : Obligations.EncodeThenDecodeGivesTheOperation := by
  refine ⟨decode_encode, fun p w i h => ?_⟩
  obtain ⟨hop, -⟩ := decode_eq_op_iff.1 h
  refine ⟨by rw [opField_encode, opField_of_decodeOp hop], ?_⟩
  rintro b rfl
  exact encode_put_of_decodeOp hop

/-! ### The opcode table -/

/-- The row of the opcode map that an operation's word belongs to (30 R62). -/
def Instr.row (i : Instr) : OpcodeRow := ⟨i.mnemonic, 0x700#11, i.opcode ++ 0#8⟩

/-- Every row of the table is the row of some operation. -/
theorem exists_row_of_mem {r : OpcodeRow} (h : r ∈ opcodeRows) : ∃ i : Instr, r = i.row := by
  simp only [opcodeRows, List.mem_cons, List.not_mem_nil, or_false] at h
  rcases h with rfl | rfl | rfl | rfl | rfl | rfl
  · exact ⟨.clear, rfl⟩
  · exact ⟨.capacity, rfl⟩
  · exact ⟨.put 0#8, rfl⟩
  · exact ⟨.get, rfl⟩
  · exact ⟨.peek, rfl⟩
  · exact ⟨.count, rfl⟩

/-- A row holds the words that carry its operation's code. -/
theorem row_holds_iff (i : Instr) (w : Request) : i.row.holds w = true ↔ opField w = i.opcode := by
  have hmask : i.row.holds w = ((opField w ++ 0#8) == (i.opcode ++ 0#8)) := by
    rw [← and_opMask]; rfl
  rw [hmask, beq_iff_eq]
  exact ⟨fun h => by simpa using congrArg opField h, fun h => by rw [h]⟩

/-- Operations share their mnemonic exactly when they share their code. -/
theorem mnemonic_eq_iff (i j : Instr) : i.mnemonic = j.mnemonic ↔ i.opcode = j.opcode := by
  cases i <;> cases j <;> simp [Instr.mnemonic, Instr.opcode]

theorem row_eq_of_opcode {i j : Instr} (h : i.opcode = j.opcode) : i.row = j.row := by
  rw [Instr.row, Instr.row, (mnemonic_eq_iff i j).2 h, h]

/-- A word that carries an operation's code selects an operation. -/
theorem exists_decodeOp_of_opField {w : Request} {i : Instr} (h : opField w = i.opcode) :
    ∃ j, decodeOp w = some j := by
  refine Option.ne_none_iff_exists'.1 fun hnone => ?_
  have hreserved := (decodeOp_eq_none_iff w).1 hnone
  rw [h, ← opField_encode, ← decodeOp_eq_none_iff, decodeOp_encode] at hreserved
  cases hreserved

/-- Settles O2: a row holds a word when the word carries its operation's code, which is what the decoder reads. -/
theorem decoderReadsTheOpcodeTable : Obligations.DecoderReadsTheOpcodeTable := by
  intro w
  refine ⟨fun r hr r' hr' h h' => ?_, fun r hr => ?_⟩
  · obtain ⟨i, rfl⟩ := exists_row_of_mem hr
    obtain ⟨j, rfl⟩ := exists_row_of_mem hr'
    exact row_eq_of_opcode (((row_holds_iff i w).1 h).symm.trans ((row_holds_iff j w).1 h'))
  · obtain ⟨i, rfl⟩ := exists_row_of_mem hr
    rw [row_holds_iff]
    constructor
    · intro h
      obtain ⟨j, hj⟩ := exists_decodeOp_of_opField h
      exact ⟨j, hj, (mnemonic_eq_iff j i).2 ((opField_of_decodeOp hj).symm.trans h)⟩
    · rintro ⟨j, hj, hmn⟩
      exact (opField_of_decodeOp hj).trans ((mnemonic_eq_iff j i).1 hmn)

/-- Settles O3, by evaluating the decoder on the ten words. -/
theorem writtenOutWordsDecode : Obligations.WrittenOutWordsDecode := by
  unfold Obligations.WrittenOutWordsDecode
  decide

end Sys2Proof

namespace Sys2Proof.Machine

/-! ### The assembler's lines (30 R71) -/

theorem assemble_op_iff {p : Port} {m : Mnemonic} {byte : Option Byte} {e : Option Expected} {w : Request} :
    (AsmLine.mk p (.op m byte e)).assemble = some w ↔
      ∃ i, m.instr byte = some i ∧ i.legalOn p = true ∧ encode i = w := by
  simp only [AsmLine.assemble]
  cases m.instr byte with
  | none => simp
  | some i => by_cases hl : i.legalOn p = true <;> simp [hl]

/-- Settles O58: the canonical word of an operation decodes to it exactly where it is legal. -/
theorem assembledLinesSpellTheirOperation : Obligations.AssembledLinesSpellTheirOperation := by
  intro p m byte e w
  rw [assemble_op_iff]
  refine exists_congr fun i => and_congr_right fun _ => and_congr_left ?_
  rintro rfl
  rw [decode_eq_op_iff, decodeOp_encode]
  simp

/-! ### The response word and its views (30 R65 to R68) -/

@[simp] theorem respStatusField_pack (c : Config) (r : Response) : respStatusField c (r.pack c) = r.status.code :=
  BitVec.extractLsb'_append_eq_left

@[simp] theorem respDataField_pack (c : Config) (r : Response) :
    respDataField c (r.pack c) = BitVec.ofNat c.rw r.data :=
  BitVec.extractLsb'_append_eq_right

@[simp] theorem Status.ofCode_code (st : Status) : Status.ofCode st.code = st := by
  cases st <;> rfl

/-- Settles O4: the two fields of the packed word, the data being below `2 ^ RW`. -/
theorem responseWordHoldsStatusAndData : Obligations.ResponseWordHoldsStatusAndData := by
  intro c r hr
  have hdata : (respDataField c (r.pack c)).toNat = r.data := by
    rw [respDataField_pack, BitVec.toNat_ofNat, Nat.mod_eq_of_lt hr]
  exact ⟨respStatusField_pack c r, hdata, by
    rw [Response.unpack, respStatusField_pack, Status.ofCode_code, hdata]⟩

/-- Settles O5: the widened view of a byte is not negative. -/
theorem widenedViewSeparatesNoDataFromEveryByte : Obligations.WidenedViewSeparatesNoDataFromEveryByte := by
  intro b
  refine ⟨rfl, rfl, rfl, fun h => ?_, rfl, rfl⟩
  have hbyte : (b.toNat : Int) = -1 := Option.some.inj h
  omega

/-! ### Widths (00 R7, 10 R23 to R25) -/

theorem index_lt_two_pow_iw {c : Config} {i : Nat} (hi : i < c.cap) : i < 2 ^ c.iw :=
  calc i ≤ c.cap - 1 := Nat.le_pred_of_lt hi
    _ < 2 ^ bitlen (c.cap - 1) := lt_two_pow_bitlen _
    _ ≤ 2 ^ c.iw := Nat.pow_le_pow_right (by decide) (Nat.le_max_right _ _)

theorem count_lt_two_pow_cw {c : Config} {n : Nat} (hn : n ≤ c.cap) : n < 2 ^ c.cw :=
  hn.trans_lt (lt_two_pow_bitlen _)

/-- Settles O6, register by register. -/
theorem registersAndDataFitTheirWidths : Obligations.RegistersAndDataFitTheirWidths :=
  fun s hs => ⟨index_lt_two_pow_iw hs.rd_lt, index_lt_two_pow_iw hs.wr_lt, count_lt_two_pow_cw hs.cnt_le,
    zextRw_of_le hs.cnt_le, zextRw_cap _, fun i => zextRw_byte _ (s.memRead i)⟩

end Sys2Proof.Machine

/-! PROOFS. The operations one by one (41, 42, 43), their frames (10 R27), and the level outputs (43 R141). -/

namespace Sys2Proof.Machine

theorem State.emptyO_eq_false_iff (s : State) : s.emptyO = false ↔ s.cnt ≠ 0 := decide_eq_false_iff_not

theorem State.fullO_eq_false_iff (s : State) : s.fullO = false ↔ s.cnt ≠ s.cfg.cap := decide_eq_false_iff_not

/-- The completion of a step writes nothing of the block. -/
theorem SameBlock.complete {s u : State} (h : SameBlock s u) (w : Request) (r : Response) :
    SameBlock s (u.complete w r) :=
  ⟨by simp [h.buf], by simp [h.rd], by simp [h.wr], by simp [h.cnt]⟩

theorem SameBlock.refl (s : State) : SameBlock s s := ⟨rfl, rfl, rfl, rfl⟩

theorem SameBlock.markFault (s : State) : SameBlock s s.markFault := ⟨rfl, rfl, rfl, rfl⟩

@[simp] theorem State.memRead_markFault (s : State) (i : Nat) : s.markFault.memRead i = s.memRead i := rfl

/-! ### Operations that are performed -/

/-- Settles O7, by the effect of CLEAR. -/
theorem clearEmptiesTheBuffer : Obligations.ClearEmptiesTheBuffer := by
  intro s w hw
  have heffect := Effect.clear (s := s)
  have hcap : 0 ≠ s.cfg.cap := Nat.ne_of_lt s.cfg.cap_pos
  exact ⟨_, exec_of_effect heffect hw, heffect.answered w, by simp, by simp, by simp, by simp, by simp,
    (State.emptyO_iff _).2 (by simp), (State.fullO_eq_false_iff _).2 (by simpa using hcap)⟩

/-- Settles O8: the effect of CAPACITY is its response. -/
theorem capacityAnswersCap : Obligations.CapacityAnswersCap :=
  fun _ _ hw => Effect.capacity.exec_keeps hw

/-- Settles O12: the effect of PEEK is its response. -/
theorem peekShowsTheByteAtTheReadIndex : Obligations.PeekShowsTheByteAtTheReadIndex :=
  fun _ _ hw hcons hne hslot => (Effect.peek hcons hne hslot).exec_keeps hw

/-- Settles O14: the effect of COUNT is its response, and a count in range fits the data field. -/
theorem countAnswersTheCount : Obligations.CountAnswersTheCount := by
  intro s w hw hcnt
  have hkeeps := (Effect.count (s := s)).exec_keeps hw
  rwa [zextRw_of_le hcnt] at hkeeps

/-- Settles O9, by the effect of PUT and the laws of a storage write. -/
theorem putStoresAtTheWriteIndex : Obligations.PutStoresAtTheWriteIndex := by
  intro s w b hw hprod hfull hslot
  have heffect := Effect.put (b := b) hprod hfull hslot
  have hinc : s.inc s.wr = (s.wr + 1) % s.cfg.cap := s.inc_eq hslot
  refine ⟨_, exec_of_effect heffect hw, heffect.answered w, ?same, fun a ha => ?other, by simpa using hinc,
    by simp, by simp, by simp, (State.emptyO_eq_false_iff _).2 (by simp), by simp [State.fullO_iff]⟩
  case same => simp [State.putSlot, State.memRead]
  case other => simp [State.memRead, Memory.read?_write, (show s.wr ≠ a from ha.symm)]

/-- Settles O11, by the effect of GET. -/
theorem getTakesTheByteAtTheReadIndex : Obligations.GetTakesTheByteAtTheReadIndex := by
  intro s w hw hcons hne hslot
  have heffect := Effect.get hcons hne hslot
  have hinc : s.inc s.rd = (s.rd + 1) % s.cfg.cap := s.inc_eq hslot
  have hlast : s.cnt - 1 = 0 ↔ s.cnt = 1 := by omega
  have hroom : s.cnt ≤ s.cfg.cap → s.cnt - 1 ≠ s.cfg.cap := by omega
  exact ⟨_, exec_of_effect heffect hw, heffect.answered w, by simpa using hinc, by simp, by simp, by simp, by simp,
    (State.emptyO_iff _).trans (by simpa using hlast),
    fun hcnt => (State.fullO_eq_false_iff _).2 (by simpa using hroom hcnt)⟩

/-! ### Operations on the wrong port (60 R163) -/

/-- An operation that is not legal on the port being performed is answered ILLEGAL, and sets the mark. -/
theorem exec_of_not_legalOn {i : Instr} {s : State} {w : Request} (hl : i.legalOn s.turn = false)
    (hw : (s.port s.turn).inFlight = some w) :
    ∃ t, exec i s = .next t ∧ AnsweredWith s t w ⟨.illegal, 0⟩ ∧ SameBlock s t ∧ t.faultMark = true :=
  ⟨_, exec_of_effect (.illegal hl) hw, (Effect.illegal hl).answered w, (SameBlock.markFault s).complete _ _,
    by simp⟩

/-- Settles O15: neither is legal there. -/
theorem operationsOnTheWrongPortAreRejected : Obligations.OperationsOnTheWrongPortAreRejected := by
  intro i s w hw hwrong
  refine exec_of_not_legalOn ?_ hw
  rcases hwrong with ⟨⟨b, rfl⟩, hcons⟩ | ⟨rfl | rfl, hprod⟩
  · rw [hcons]; rfl
  · rw [hprod]; rfl
  · rw [hprod]; rfl

/-! ### Frames (10 R27) -/

/-- Settles O16: PUT is rejected, answers FULL, or stores at the write index. -/
theorem frameOfPut : Obligations.FrameOfPut := by
  intro b s t h
  obtain ⟨w, u, r, -, heffect, rfl⟩ := effect_of_exec h
  have hans := heffect.answered w
  cases heffect with
  | illegal hl =>
    have hcons : s.turn ≠ .prod := fun hp => by simp [(legalOn_put b _).2 hp] at hl
    exact ⟨fun _ _ _ _ => by simp, fun _ => (SameBlock.markFault s).complete _ _, by simp,
      fun hp => absurd hp hcons, w, _, hans⟩
  | putFull ht hf =>
    exact ⟨fun _ _ _ _ => by simp, fun _ => (SameBlock.refl s).complete _ _, by simp, fun _ => by simp, w, _, hans⟩
  | put ht hf hslot =>
    refine ⟨?stored, fun hkept => ?kept, by simp, fun _ => by simp, w, _, hans⟩
    case stored =>
      rintro a rfl a' ha
      simp [State.memRead, Memory.read?_write, (show s.wr ≠ a' from ha.symm)]
    case kept => simp [ht, State.isFull, hf] at hkept

/-- Settles O17: the storage is written by PUT alone. -/
theorem frameOfOperationsThatStoreNothing : Obligations.FrameOfOperationsThatStoreNothing := by
  intro i s t hi h
  obtain ⟨w, u, r, -, heffect, rfl⟩ := effect_of_exec h
  have hans := heffect.answered w
  cases heffect with
  | illegal hl =>
    exact ⟨fun a => by simp, fun _ => by simp, fun _ _ => by simp, fun hlegal => by simp [hl] at hlegal, w, _, hans⟩
  | putFull | put => simp at hi
  | clear | capacity | getEmpty | get | peekEmpty | peek | count =>
    exact ⟨fun a => State.memRead_congr (by simp) (by simp) a, by simp, by simp, fun _ => by simp, w, _, hans⟩

/-! ### The level outputs (43 R141) -/

/-- Only CLEAR, GET and PUT write the count. -/
theorem BlockChange.cnt_eq_or {p : Port} {w : Request} {s t : State} {r : Response} (h : BlockChange p w s t r) :
    t.cnt = s.cnt ∨ decode p w = .op .clear ∨ decode p w = .op .get ∨ ∃ b, decode p w = .op (.put b) := by
  cases h with
  | illegal _ hb | capacity _ hb | count _ hb | putFull _ _ _ hb | readEmpty _ _ _ hb | peek _ _ _ _ hb =>
    exact .inl hb.cnt
  | clear hd => exact .inr (.inl hd)
  | get hd => exact .inr (.inr (.inl hd))
  | put hd => exact .inr (.inr (.inr ⟨_, hd⟩))

/-- The outputs are functions of the count and CAP. -/
theorem State.outputs_congr {s t : State} (hcfg : t.cfg = s.cfg) (hcnt : t.cnt = s.cnt) :
    t.emptyO = s.emptyO ∧ t.fullO = s.fullO := by
  simp [State.emptyO, State.fullO, State.isEmpty, State.isFull, hcfg, hcnt]

/-- Settles O23: COUNT answers the count, and the outputs change only where the count does. -/
theorem outputsAreSnapshotsOfTheCount : Obligations.OutputsAreSnapshotsOfTheCount := by
  refine ⟨fun s t hcnt h => ?_, fun p s t h hout => ?_⟩
  · obtain ⟨w, u, r, -, heffect, rfl⟩ := effect_of_exec h
    have hans := heffect.answered w
    cases heffect with
    | illegal hl => simp at hl
    | count =>
      refine ⟨s.cnt, ?_, s.emptyO_iff, s.fullO_iff⟩
      rw [hans.answered, zextRw_of_le hcnt]
  · obtain ⟨w, r, hw, -, hchange⟩ := performPort_cases h
    rcases hchange.cnt_eq_or with hcnt | hd | hd | ⟨b, hd⟩
    · obtain ⟨hempty, hfull⟩ := State.outputs_congr (performPort_cfg h) hcnt
      exact (hout.elim (· hempty) (· hfull)).elim
    · exact .inl ⟨w, hw, hd⟩
    · exact .inr (.inl ⟨w, hw, hd⟩)
    · exact .inr (.inr ⟨b, w, hw, hd⟩)

/-! ### Reset and launch (10 R37, 70 R190, R192) -/

/-- Settles O24: the fields of the reset state. -/
theorem resetLeavesTheSpecValues : Obligations.ResetLeavesTheSpecValues := by
  intro c n
  have hfull : (State.resetWith c n).fullO = false :=
    (State.fullO_eq_false_iff _).2 (Nat.ne_of_lt c.cap_pos)
  exact ⟨rfl, rfl, rfl, rfl, rfl, hfull, fun _ => rfl, fun p => by cases p <;> exact ⟨rfl, rfl⟩, rfl, rfl⟩

theorem launch_of_pos {cap : Nat} (h : 1 ≤ cap) (role : Role) (clocking : Clocking) (lat draw : Nat) :
    Machine.launch cap role clocking lat draw = .next (State.resetWith ⟨cap, h, role, clocking, lat⟩ draw) :=
  dif_pos h

theorem assertReset_of_history {s : State} (h : s.history ≠ []) : assertReset s = .refused .resetDuringRun := by
  simp [assertReset, State.atLaunch, h]

/-- Settles O25, by `launch_of_pos` and `assertReset_of_history`. -/
theorem launchAndResetRefusals : Obligations.LaunchAndResetRefusals :=
  ⟨fun _ _ _ _ => rfl,
    fun _ role clocking lat draw hcap =>
      ⟨_, launch_of_pos hcap role clocking lat draw, rfl, State.resetWith_inv _ _⟩,
    fun _ => assertReset_of_history⟩

end Sys2Proof.Machine

/-! PROOFS. What performing never looks at: the arbiter's bookkeeping (log 4) and the parameters ROLE, CLOCKING
and LAT (00 R7). A change of either commutes with every operation, and so with every perform order. -/

namespace Sys2Proof.Machine

/-- A change of the state that no operation sees: what operations read is as before, and it commutes with what
they write. -/
structure Inert (f : State → State) : Prop where
  cap : ∀ s, (f s).cfg.cap = s.cfg.cap
  rd : ∀ s, (f s).rd = s.rd
  wr : ∀ s, (f s).wr = s.wr
  cnt : ∀ s, (f s).cnt = s.cnt
  turn : ∀ s, (f s).turn = s.turn
  port : ∀ s p, (f s).port p = s.port p
  memRead : ∀ s i, (f s).memRead i = s.memRead i
  setRd : ∀ s v, (f s).setRd v = f (s.setRd v)
  setWr : ∀ s v, (f s).setWr v = f (s.setWr v)
  setCnt : ∀ s v, (f s).setCnt v = f (s.setCnt v)
  memWrite : ∀ s i v, (f s).memWrite i v = f (s.memWrite i v)
  markFault : ∀ s, (f s).markFault = f s.markFault
  accept : ∀ s p w, (f s).accept p w = f (s.accept p w)
  complete : ∀ s w r, (f s).complete w r = f (s.complete w r)

/-- The state with its parameters and the arbiter's bookkeeping changed. -/
def State.mapOutside (fc : Config → Config) (fg : List Port → List Port) (fn : Nat → Nat) (s : State) : State :=
  { s with cfg := fc s.cfg, grants := fg s.grants, arbDraws := fn s.arbDraws }

/-- Of the parameters the operations see CAP alone, and of the arbiter's bookkeeping nothing. -/
theorem inert_mapOutside {fc : Config → Config} (hcap : ∀ c, (fc c).cap = c.cap) (fg : List Port → List Port)
    (fn : Nat → Nat) : Inert (State.mapOutside fc fg fn) where
  cap s := hcap s.cfg
  rd _ := rfl
  wr _ := rfl
  cnt _ := rfl
  turn _ := rfl
  port _ p := by cases p <;> rfl
  memRead _ _ := rfl
  setRd _ _ := rfl
  setWr _ _ := rfl
  setCnt _ _ := rfl
  memWrite _ _ _ := rfl
  markFault _ := rfl
  accept _ p _ := by cases p <;> rfl
  complete s _ _ := by obtain ⟨_, _, _, _, _, _, _, _ | _, _, _, _, _, _⟩ := s <;> rfl

theorem inert_withArbiter (g : List Port) (n : Nat) : Inert (fun s => s.withArbiter g n) :=
  inert_mapOutside (fc := id) (fun _ => rfl) (fun _ => g) (fun _ => n)

theorem inert_withGrants (g : List Port) : Inert (fun s => s.withGrants g) :=
  inert_mapOutside (fc := id) (fun _ => rfl) (fun _ => g) id

theorem inert_withParameters (role : Role) (clocking : Clocking) (lat : Nat) :
    Inert (fun s => s.withParameters role clocking lat) :=
  inert_mapOutside (fc := fun c => ⟨c.cap, c.cap_pos, role, clocking, lat⟩) (fun _ => rfl) id id

/-! ### The operations -/

theorem Result.ite_eq_mapNext {f : State → State} {c : Prop} [Decidable c] {x x' y y' : Result}
    (hx : x' = Result.mapNext f x) (hy : y' = Result.mapNext f y) :
    (if c then x' else y') = Result.mapNext f (if c then x else y) := by
  split
  · exact hx
  · exact hy

section
variable {f : State → State} (hf : Inert f)
include hf

theorem Inert.zextRw (s : State) (v : Nat) : zextRw (f s).cfg v = zextRw s.cfg v := by
  simp only [Sys2Proof.zextRw, Config.rw, hf.cap]

theorem Inert.inc (s : State) (i : Nat) : (f s).inc i = s.inc i := by
  simp only [State.inc, hf.cap]

theorem Inert.respond (st : Status) (d : Nat) (s : State) :
    respond st d (f s) = Result.mapNext f (respond st d s) := by
  simp only [Machine.respond, hf.turn, hf.port, hf.complete]
  cases (s.port s.turn).inFlight <;> rfl

theorem Inert.raiseIllegal (s : State) : raiseIllegal (f s) = Result.mapNext f (raiseIllegal s) := by
  simp only [Machine.raiseIllegal, hf.markFault, hf.respond]

theorem Inert.whenLegal {i : Instr} {s : State} {k k' : Result} (hk : k' = Result.mapNext f k) :
    whenLegal i (f s) k' = Result.mapNext f (whenLegal i s k) := by
  simp only [Machine.whenLegal, hf.turn, hf.raiseIllegal, hk]
  split <;> rfl

theorem Inert.withSlot {i : Nat} {s : State} {k k' : Result} (hk : k' = Result.mapNext f k) :
    withSlot (f s) i k' = Result.mapNext f (withSlot s i k) := by
  simp only [Machine.withSlot, hf.cap, hk]
  split <;> rfl

theorem Inert.exec (i : Instr) (s : State) : exec i (f s) = Result.mapNext f (exec i s) := by
  cases i with
  | clear =>
    simp only [Machine.exec, execClear]
    exact hf.whenLegal (by simp only [hf.setRd, hf.setWr, hf.setCnt, hf.respond])
  | capacity =>
    simp only [Machine.exec, execCapacity]
    exact hf.whenLegal (by simp only [hf.cap, hf.zextRw, hf.respond])
  | put b =>
    simp only [Machine.exec, execPut]
    refine hf.whenLegal ?_
    simp only [State.isFull, State.putSlot, hf.cnt, hf.cap, hf.wr, hf.inc, hf.memWrite, hf.setWr, hf.setCnt,
      hf.respond]
    exact Result.ite_eq_mapNext rfl (hf.withSlot rfl)
  | get =>
    simp only [Machine.exec, execGet]
    refine hf.whenLegal ?_
    simp only [State.isEmpty, State.headSlot, hf.cnt, hf.rd, hf.inc, hf.zextRw, hf.memRead, hf.setRd, hf.setCnt,
      hf.respond]
    exact Result.ite_eq_mapNext rfl (hf.withSlot rfl)
  | peek =>
    simp only [Machine.exec, execPeek]
    refine hf.whenLegal ?_
    simp only [State.isEmpty, State.headSlot, hf.cnt, hf.rd, hf.zextRw, hf.memRead, hf.respond]
    exact Result.ite_eq_mapNext rfl (hf.withSlot rfl)
  | count =>
    simp only [Machine.exec, execCount]
    exact hf.whenLegal (by simp only [hf.cnt, hf.zextRw, hf.respond])

theorem Inert.performPort (p : Port) (s : State) :
    performPort p (f s) = Result.mapNext f (performPort p s) := by
  simp only [Machine.performPort, runRequest, hf.port, hf.accept, hf.turn]
  cases (s.port p).pending with
  | none => rfl
  | some w =>
    simp only
    cases decode (s.accept p w).turn w with
    | illegal reason => exact hf.raiseIllegal _
    | op i => exact hf.exec i _

theorem Inert.performOrder (order : List Port) (s : State) :
    performOrder order (f s) = Result.mapNext f (performOrder order s) := by
  induction order generalizing s with
  | nil => rfl
  | cons p order ih =>
    simp only [Machine.performOrder, hf.performPort]
    cases Machine.performPort p s with
    | next t => exact ih t
    | fault r => rfl
    | refused r => rfl

end

/-- Settles O56: the three parameters are inert. -/
theorem roleClockingAndLatencyChangeNothing : Obligations.RoleClockingAndLatencyChangeNothing :=
  fun order s role clocking lat => (inert_withParameters role clocking lat).performOrder order s

theorem Result.mapNext_eq_next {f : State → State} {x : Result} {t : State} :
    Result.mapNext f x = .next t ↔ ∃ u, x = .next u ∧ t = f u := by
  cases x <;> simp [Result.mapNext, eq_comm]

end Sys2Proof.Machine

/-! PROOFS. Steps and runs (40 R82 to R90): a step performs the request the arbiter picks, runs are perform orders
and perform orders runs, and every run ends. -/

namespace Sys2Proof.Machine

/-! ### One step -/

theorem performPort_of_decode_op {p : Port} {s : State} {w : Request} {i : Instr} (hw : (s.port p).pending = some w)
    (hd : decode p w = .op i) : performPort p s = exec i (s.accept p w) := by
  simp [performPort, hw, runRequest, hd]

theorem performPort_of_decode_illegal {p : Port} {s : State} {w : Request} {reason : IllegalReason}
    (hw : (s.port p).pending = some w) (hd : decode p w = .illegal reason) :
    performPort p s = raiseIllegal (s.accept p w) := by
  simp [performPort, hw, runRequest, hd]

/-- Settles O26: the step performs the request picked. -/
theorem stepRunsTheDecodedRequest : Obligations.StepRunsTheDecodedRequest := by
  intro s p w hp hw
  have hw' : (s.granted.port p).pending = some w := by simpa using hw
  exact ⟨fun i hd => (step_of_nextPort hp).trans (performPort_of_decode_op hw' hd),
    fun reason hd => (step_of_nextPort hp).trans (performPort_of_decode_illegal hw' hd)⟩

/-- Settles O27: no port is picked. -/
theorem stepWithNothingPendingChangesNothing : Obligations.StepWithNothingPendingChangesNothing :=
  fun _ h => step_of_idle (State.nextPort_none.2 h)

@[simp] theorem State.isPending_withGrants (s : State) (g : List Port) (p : Port) :
    (s.withGrants g).isPending p = s.isPending p := by
  simp only [State.isPending, (inert_withGrants g).port]

theorem State.nextPort_of_both {s : State} (hp : s.isPending .prod = true) (hc : s.isPending .cons = true) :
    s.nextPort = some s.contested := by
  simp [State.nextPort, hp, hc]

/-- A pending port is picked when the arbiter's choice names it: alone pending, or in a contest. -/
theorem State.nextPort_of_contested {s : State} {p : Port} (hp : s.isPending p = true) (hc : s.contested = p) :
    s.nextPort = some p := by
  cases p with
  | prod => cases ho : s.isPending .cons <;> simp [State.nextPort, hp, ho, hc]
  | cons => cases ho : s.isPending .prod <;> simp [State.nextPort, hp, ho, hc]

theorem State.granted_of_grants {s : State} {g : Port} {gs : List Port} (h : s.grants = g :: gs) :
    s.granted = s.withGrants gs := by
  simp [State.granted, State.withGrants, State.drawsFreely, h]

theorem State.granted_of_free {s : State} (hp : s.isPending .prod = true) (hc : s.isPending .cons = true)
    (h : s.grants = []) : s.granted = { s with arbDraws := s.arbDraws + 1 } := by
  simp [State.granted, State.drawsFreely, hp, hc, h]

/-- A step whose input names a pending port performs it, and uses that input up. -/
theorem step_withGrants_cons {s : State} {p : Port} (hp : s.isPending p = true) (gs : List Port) :
    step (s.withGrants (p :: gs)) = performPort p (s.withGrants gs) := by
  have hgranted : (s.withGrants (p :: gs)).granted = s.withGrants gs := State.granted_of_grants rfl
  have hnext : (s.withGrants (p :: gs)).nextPort = some p := State.nextPort_of_contested (by simpa using hp) rfl
  rw [step_of_nextPort hnext, hgranted]

/-- Settles O28: the port named is performed; where none is, the port drawn. -/
theorem eitherPendingPortMayGoFirst : Obligations.EitherPendingPortMayGoFirst := by
  refine ⟨fun s p gs hp hc => ?_, fun s hp hc hg => ?_⟩
  · cases p with
    | prod => exact step_withGrants_cons hp gs
    | cons => exact step_withGrants_cons hc gs
  · have hdraw : s.contested = Config.arbiter s.launch s.arbDraws := by simp [State.contested, hg]
    rw [step_of_nextPort (State.nextPort_of_both hp hc), hdraw, State.granted_of_free hp hc hg]

/-! ### Perform orders are runs, and runs perform orders (40 R82) -/

theorem performPort_isPending {p : Port} {s t : State} (h : performPort p s = .next t) : s.isPending p = true := by
  obtain ⟨w, -, hw, -⟩ := performPort_cases h
  exact (s.isPending_iff p).2 ⟨w, hw⟩

/-- Settles O45, by induction on the order: each step uses up the choice that names its port. -/
theorem everyPerformOrderIsARun : Obligations.EveryPerformOrderIsARun := by
  intro order s t h
  induction order generalizing s with
  | nil => cases h; rfl
  | cons p order ih =>
    obtain ⟨u, hu, h⟩ := performOrder_cons h
    have hstep : step (s.withGrants (p :: order)) = .next (u.withGrants order) := by
      rw [step_withGrants_cons (performPort_isPending hu), (inert_withGrants order).performPort, hu]
      rfl
    rw [List.length_cons, State.runSteps_of_step hstep]
    exact ih u h

/-- A step is idle, or performs a request up to the arbiter's bookkeeping. -/
theorem step_next_performPort {s t : State} (h : step s = .next t) :
    t = s ∨ ∃ p u, performPort p s = .next u ∧ t = u.withArbiter t.grants t.arbDraws := by
  rcases step_next h with ⟨-, rfl⟩ | ⟨p, -, hp⟩
  · exact .inl rfl
  · have hgranted : s.granted = s.withArbiter s.granted.grants s.granted.arbDraws := rfl
    rw [hgranted, (inert_withArbiter _ _).performPort, Result.mapNext_eq_next] at hp
    obtain ⟨u, hu, rfl⟩ := hp
    exact .inr ⟨p, u, hu, rfl⟩

/-- Settles O46, by induction on the steps: the idle ones perform nothing. -/
theorem everyRunFollowsAPerformOrder : Obligations.EveryRunFollowsAPerformOrder := by
  intro n s t h
  induction n generalizing s with
  | zero => cases h; exact ⟨[], _, Nat.le_refl 0, rfl, rfl⟩
  | succ n ih =>
    obtain ⟨x, hx, h⟩ := State.runSteps_next h
    obtain ⟨order, v, hlen, horder, hv⟩ := ih x h
    rcases step_next_performPort hx with rfl | ⟨p, u, hu, hxu⟩
    · exact ⟨order, v, Nat.le_succ_of_le hlen, horder, hv⟩
    · rw [hxu, (inert_withArbiter _ _).performOrder, Result.mapNext_eq_next] at horder
      obtain ⟨v', hv', rfl⟩ := horder
      exact ⟨p :: order, v', Nat.succ_le_succ hlen, by simp only [performOrder, hu, hv'], hv⟩

/-! ### Progress (40 R87, R88, R90) -/

/-- How many requests a port has still to perform. -/
def PortState.left (ps : PortState) : Nat := ps.prog.length - ps.pi

theorem State.remaining_eq (s : State) (p : Port) : s.remaining = (s.port p).left + (s.port p.other).left := by
  cases p with
  | prod => rfl
  | cons => exact Nat.add_comm _ _

theorem State.isPending_iff_left (s : State) (p : Port) : s.isPending p = true ↔ 0 < (s.port p).left := by
  rw [State.isPending, PortState.pending_isSome, PortState.left, Nat.sub_pos_iff_lt]

/-- What a performed request of port `p` leaves of the ports and the history. -/
structure Progress (p : Port) (s t : State) : Prop where
  inv : t.Inv
  left : (t.port p).left + 1 = (s.port p).left
  pi : (t.port p).pi = (s.port p).pi + 1
  other : t.port p.other = s.port p.other
  history : t.history.length = s.history.length + 1

/-- From a state that meets the invariant with something pending, a step performs a pending request. -/
theorem State.Inv.step_progress {s : State} (hs : s.Inv) {p : Port} (hp : s.isPending p = true) :
    ∃ q t, step s = .next t ∧ Progress q s t := by
  cases hn : s.nextPort with
  | none => simp [State.nextPort_none.1 hn p] at hp
  | some q =>
    obtain ⟨t, ht⟩ := hs.granted.bounds.performPort_exists (p := q) (by simpa using State.nextPort_pending hn)
    obtain ⟨w, r, hw, hport, hother, hhist, -⟩ := performPort_frame ht
    simp only [State.granted_port, State.granted_history] at hw hport hother hhist
    have hlt := PortState.pending_lt hw
    refine ⟨q, t, (step_of_nextPort hn).trans ht, performPort_inv hs.granted ht, ?_, by rw [hport], hother,
      by rw [hhist, List.length_append, List.length_singleton]⟩
    simp only [hport, PortState.left]
    omega

theorem State.Inv.ended_of_remaining_eq_zero {s : State} (hs : s.Inv) (h : s.remaining = 0) : s.ended = true := by
  have hprod : s.prod.pi ≤ s.prod.prog.length := hs.piLe .prod
  have hcons : s.cons.pi ≤ s.cons.prog.length := hs.piLe .cons
  simp only [State.remaining] at h
  simp only [State.ended, PortState.finished, Bool.and_eq_true, decide_eq_true_eq]
  omega

theorem State.exists_isPending_of_remaining {s : State} (h : 0 < s.remaining) : ∃ p, s.isPending p = true := by
  simp only [s.remaining_eq .prod, Nat.add_pos_iff_pos_or_pos, ← State.isPending_iff_left] at h
  exact h.elim (⟨_, ·⟩) (⟨_, ·⟩)

theorem Progress.remaining {p : Port} {s t : State} (h : Progress p s t) : t.remaining + 1 = s.remaining := by
  rw [s.remaining_eq p, t.remaining_eq p, h.other, ← h.left]
  omega

/-- Settles O47, by induction on the requests still to perform: each step performs one. -/
theorem everyRunEnds : Obligations.EveryRunEnds := by
  intro s hs
  induction hn : s.remaining generalizing s with
  | zero => exact ⟨s, rfl, hs.ended_of_remaining_eq_zero hn, rfl⟩
  | succ n ih =>
    obtain ⟨p, hp⟩ := State.exists_isPending_of_remaining (by omega : 0 < s.remaining)
    obtain ⟨q, u, hu, hprogress⟩ := hs.step_progress hp
    have hfewer := hprogress.remaining
    obtain ⟨t, ht, hended, hlen⟩ := ih u hprogress.inv (by omega)
    exact ⟨t, (State.runSteps_of_step hu n).trans ht, hended, by rw [hlen, hprogress.history]; omega⟩

/-- Settles O48, by induction on what the other port has left: a step performs one of its requests, or port
`p`'s pending one. -/
theorem noPendingRequestIsStarved : Obligations.NoPendingRequestIsStarved := by
  intro p s hs hp
  show ∃ k t, k ≤ (s.port p.other).left + 1 ∧ _
  induction hn : (s.port p.other).left using Nat.strong_induction_on generalizing s with
  | _ n ih =>
    obtain ⟨q, u, hu, hprogress⟩ := hs.step_progress hp
    rcases Port.eq_or_other p q with rfl | rfl
    · exact ⟨1, u, Nat.le_add_left 1 n, State.runSteps_of_step hu 0, hprogress.pi⟩
    · have hsame : u.port p = s.port p := by simpa using hprogress.other
      have hfewer : (u.port p.other).left + 1 = n := hprogress.left.trans hn
      have hpending : u.isPending p = true := by rwa [State.isPending, hsame]
      obtain ⟨k, t, hk, ht, hpi⟩ := ih _ (by omega) u hprogress.inv hpending rfl
      exact ⟨k + 1, t, by omega, (State.runSteps_of_step hu k).trans ht, by rw [hpi, hsame]⟩

/-! ### Listings (30 R71, 95 section 3) -/

/-- The port and the request of an event. -/
def Event.request (e : Event) : Port × Request := (e.port, e.req)

theorem requestsOf_cons_same (p : Port) (w : Request) (rs : List (Port × Request)) :
    requestsOf p ((p, w) :: rs) = w :: requestsOf p rs := by
  simp [requestsOf]

theorem requestsOf_cons_other (p : Port) (w : Request) (rs : List (Port × Request)) :
    requestsOf p.other ((p, w) :: rs) = requestsOf p.other rs := by
  simp [requestsOf, (Port.other_ne p).symm]

/-- A port whose requests still to issue are known has the first of them pending. -/
theorem PortState.pending_of_drop {ps : PortState} {w : Request} {ws : List Request}
    (h : ps.prog.drop ps.pi = w :: ws) : ps.pending = some w := by
  have hhead : (ps.prog.drop ps.pi)[0]? = some w := by rw [h]; rfl
  rwa [List.getElem?_drop] at hhead

/-- Clients that hold a sequence of requests, each its own in order, can be performed in that sequence, to the
end of both lists. -/
theorem performOrder_of_requests {rs : List (Port × Request)} {s : State} (hs : s.Inv)
    (hrs : ∀ p, (s.port p).prog.drop (s.port p).pi = requestsOf p rs) :
    ∃ t, performOrder (rs.map Prod.fst) s = .next t ∧
      t.history.map Event.request = s.history.map Event.request ++ rs ∧ t.ended = true := by
  induction rs generalizing s with
  | nil =>
    refine ⟨s, rfl, by simp, hs.ended_of_remaining_eq_zero ?_⟩
    have hleft : ∀ p, (s.port p).left = 0 := fun p => by
      simpa [requestsOf, PortState.left, Nat.sub_eq_zero_iff_le] using hrs p
    rw [s.remaining_eq .prod, hleft, hleft]
  | cons e rs ih =>
    obtain ⟨p, w⟩ := e
    have hpending : (s.port p).pending = some w :=
      PortState.pending_of_drop ((hrs p).trans (requestsOf_cons_same p w rs))
    obtain ⟨u, hu⟩ := performPort_exists hpending hs.bounds.rd_lt hs.bounds.wr_lt
    obtain ⟨w', r, hw', hport, hother, hhist, -⟩ := performPort_frame hu
    obtain rfl : w = w' := Option.some.inj (hpending.symm.trans hw')
    have hrest : ∀ q, (u.port q).prog.drop (u.port q).pi = requestsOf q rs := fun q => by
      rcases Port.eq_or_other p q with rfl | rfl
      · have hq := hrs q
        rw [PortState.drop_of_pending hpending, requestsOf_cons_same] at hq
        rw [hport]
        exact List.tail_eq_of_cons_eq hq
      · rw [hother, hrs, requestsOf_cons_other]
    obtain ⟨t, ht, htrace, hended⟩ := ih (performPort_inv hs hu) hrest
    refine ⟨t, by simp only [List.map_cons, performOrder, hu, ht], ?_, hended⟩
    simp [htrace, hhist, Event.request]

/-- A listing assembles line by line, each line on its port. -/
theorem assembleAll_eq_some {ls : List AsmLine} {rs : List (Port × Request)} (h : assembleAll ls = some rs) :
    rs.map Prod.fst = ls.map AsmLine.port ∧ ls.mapM AsmLine.assemble = some (rs.map Prod.snd) := by
  induction ls generalizing rs with
  | nil => cases h; exact ⟨rfl, rfl⟩
  | cons l ls ih =>
    unfold assembleAll at h
    split at h
    · next w rest hw hrest =>
      cases h
      obtain ⟨hports, hwords⟩ := ih hrest
      simp [hports, hw, hwords]
    · cases h

/-- Settles O59: the load gives each client its requests and the arbiter the order, and a perform order is a
run. -/
theorem listingsRunInTheirOrder : Obligations.ListingsRunInTheirOrder := by
  intro c n ls s h
  obtain ⟨rs, hassemble, rfl⟩ := Option.map_eq_some_iff.1 h
  obtain ⟨hports, hwords⟩ := assembleAll_eq_some hassemble
  obtain ⟨t, ht, htrace, hended⟩ := performOrder_of_requests (rs := rs)
    (launched_inv c n (requestsOf .prod rs) (requestsOf .cons rs)) fun p => by cases p <;> rfl
  have hlen : (rs.map Prod.fst).length = ls.length := by rw [hports, List.length_map]
  have hevents : t.history.map Event.request = rs := htrace
  have hports' : t.history.map Event.port = rs.map Prod.fst := by
    rw [← hevents, List.map_map]; rfl
  have hwords' : t.history.map Event.req = rs.map Prod.snd := by
    rw [← hevents, List.map_map]; rfl
  refine ⟨t.withGrants [], ?_, hports'.trans hports, hwords.trans (congrArg some hwords'.symm), hended⟩
  rw [← hlen]
  exact everyPerformOrderIsARun _ _ t ht

end Sys2Proof.Machine

/-! PROOFS. The driver's two FIFOs share nothing (10 R38). -/

namespace Sys2Proof.Machine

theorem Driver.stepFifo_next {d d' : Driver} {n : FifoName} (h : d.stepFifo n = .next d') :
    ∃ s, step (d.fifo n) = .next s ∧ d' = d.setFifo n s := by
  unfold Driver.stepFifo at h
  split at h
  · cases h; exact ⟨_, ‹_›, rfl⟩
  all_goals cases h

theorem Driver.stepsFifo_cons {n : FifoName} {ns : List FifoName} {d d' : Driver}
    (h : Driver.stepsFifo (n :: ns) d = .next d') :
    ∃ s, step (d.fifo n) = .next s ∧ Driver.stepsFifo ns (d.setFifo n s) = .next d' := by
  unfold Driver.stepsFifo at h
  split at h
  · next e he =>
    obtain ⟨s, hs, rfl⟩ := Driver.stepFifo_next he
    exact ⟨s, hs, h⟩
  all_goals cases h

theorem Driver.fifo_setFifo (d : Driver) (n m : FifoName) (s : State) :
    (d.setFifo n s).fifo m = if n = m then s else d.fifo m := by
  cases n <;> cases m <;> rfl

/-- Each of the two FIFOs ends as its own steps alone leave it. -/
theorem Driver.runSteps_of_stepsFifo {ns : List FifoName} {d d' : Driver} (h : Driver.stepsFifo ns d = .next d')
    (m : FifoName) : (d.fifo m).runSteps (ns.count m) = .next (d'.fifo m) := by
  induction ns generalizing d with
  | nil => cases h; rfl
  | cons n ns ih =>
    obtain ⟨s, hs, h⟩ := Driver.stepsFifo_cons h
    have hrest := ih h
    rw [Driver.fifo_setFifo] at hrest
    by_cases hn : n = m
    · subst hn
      rw [List.count_cons_self, State.runSteps_of_step hs]
      simpa using hrest
    · rw [List.count_cons_of_ne hn]
      simpa [hn] using hrest

/-- Settles O57, by `Driver.runSteps_of_stepsFifo` of either FIFO. -/
theorem driverInstancesAreIndependent : Obligations.DriverInstancesAreIndependent :=
  fun _ _ _ h => ⟨Driver.runSteps_of_stepsFifo h .receive, Driver.runSteps_of_stepsFifo h .transmit⟩

end Sys2Proof.Machine

/-! PROOFS. Requests repeated (20 R47), and requests pending together on the two ports (60 R167, 70 R198). -/

namespace Sys2Proof.Machine

/-! ### Repeating a request (20 R47) -/

/-- The response the block gives to a request that decodes to `d`. -/
def State.response (s : State) (d : Decoded) : Response :=
  match d with
  | .illegal _ => ⟨.illegal, 0⟩
  | .op .clear => ⟨.ok, 0⟩
  | .op .capacity => ⟨.ok, s.cfg.cap⟩
  | .op (.put _) => if s.cnt = s.cfg.cap then ⟨.full, 0⟩ else ⟨.ok, 0⟩
  | .op .get | .op .peek => if s.cnt = 0 then ⟨.empty, 0⟩ else ⟨.ok, (s.memRead s.rd).toNat⟩
  | .op .count => ⟨.ok, zextRw s.cfg s.cnt⟩

theorem BlockChange.resp_eq {p : Port} {w : Request} {s t : State} {r : Response} (h : BlockChange p w s t r) :
    r = s.response (decode p w) := by
  cases h with
  | illegal hd | clear hd | capacity hd | count hd => simp [hd, State.response]
  | putFull hd _ hf | put hd _ hf => simp [hd, State.response, hf]
  | readEmpty hd _ he => rcases hd with hd | hd <;> simp [hd, State.response, he]
  | get hd _ he | peek hd _ he => simp [hd, State.response, he]

theorem SameBlock.response {s t : State} (h : SameBlock s t) (hcfg : t.cfg = s.cfg) (hlaunch : t.launch = s.launch)
    (d : Decoded) : t.response d = s.response d := by
  simp [State.response, hcfg, h.cnt, h.rd, State.memRead_congr h.buf hlaunch]

/-- PEEK, COUNT and CAPACITY write nothing of the block. -/
theorem BlockChange.sameBlock_of_reading {p : Port} {w : Request} {s t : State} {r : Response} {i : Instr}
    (h : BlockChange p w s t r) (hi : i = .peek ∨ i = .count ∨ i = .capacity) (hop : decode p w = .op i) :
    SameBlock s t := by
  cases h with
  | illegal _ hb | capacity _ hb | count _ hb | putFull _ _ _ hb | readEmpty _ _ _ hb | peek _ _ _ _ hb => exact hb
  | clear hd | put hd | get hd =>
    cases hop.symm.trans hd
    simp at hi

/-- Only a request answered OK writes the block. -/
theorem BlockChange.sameBlock_of_not_ok {p : Port} {w : Request} {s t : State} {r : Response}
    (h : BlockChange p w s t r) (hr : r.status ≠ .ok) : SameBlock s t := by
  cases h with
  | illegal _ hb | putFull _ _ _ hb | readEmpty _ _ _ hb => exact hb
  | clear | capacity | count | put | get | peek => exact absurd rfl hr

theorem BlockChange.cnt_of_put_ok {p : Port} {w : Request} {s t : State} {r : Response} {b : Byte}
    (h : BlockChange p w s t r) (hop : decode p w = .op (.put b)) (hr : r.status = .ok) : t.cnt = s.cnt + 1 := by
  cases h with
  | put _ _ _ _ _ _ _ hc => exact hc
  | illegal | putFull | readEmpty => cases hr
  | clear hd | capacity hd | count hd | get hd | peek hd => cases hop.symm.trans hd

theorem BlockChange.cnt_of_get_ok {p : Port} {w : Request} {s t : State} {r : Response}
    (h : BlockChange p w s t r) (hop : decode p w = .op .get) (hr : r.status = .ok) : t.cnt + 1 = s.cnt := by
  cases h with
  | get _ _ he _ _ _ _ hc => omega
  | illegal | putFull | readEmpty => cases hr
  | clear hd | capacity hd | count hd | put hd | peek hd => cases hop.symm.trans hd

theorem performPort_launch {p : Port} {s t : State} (h : performPort p s = .next t) : t.launch = s.launch := by
  obtain ⟨_, _, _, hans, _⟩ := performPort_cases h
  simpa using hans.launch

/-- Settles O55, clause by clause by what `BlockChange` says of the operation. -/
theorem repeatingARequest : Obligations.RepeatingARequest := by
  refine ⟨fun p i s t u hi hs ht hop hu => ?reading, fun p q s t u hs ht hop hu => ?clear,
    fun p s t r h hr hok => ?failed, fun s t b hs h hr => ?put, fun s t v hs h hr => ?get⟩
  case reading =>
    obtain ⟨w, r, hd, hresp, hchange⟩ := hs.blockChange ht
    obtain ⟨w', r', hd', hresp', hchange'⟩ := hop.blockChange hu
    have hsame := hchange.sameBlock_of_reading hi hd
    refine ⟨hsame, hchange'.sameBlock_of_reading hi hd', ?_⟩
    rw [hresp, hresp', hchange.resp_eq, hchange'.resp_eq, hd, hd',
      hsame.response (performPort_cfg ht) (performPort_launch ht)]
  case clear =>
    obtain ⟨w, r, hd, -, hchange⟩ := hs.blockChange ht
    obtain ⟨w', r', hd', -, hchange'⟩ := hop.blockChange hu
    obtain ⟨hrd, hwr, hcnt, -⟩ := hchange.of_clear hd
    obtain ⟨hrd', hwr', hcnt', hbuf'⟩ := hchange'.of_clear hd'
    exact ⟨hbuf', hrd'.trans hrd.symm, hwr'.trans hwr.symm, hcnt'.trans hcnt.symm⟩
  case failed =>
    obtain ⟨w, r', -, hans, hchange⟩ := performPort_cases h
    have hresp : (t.port p).resp = some r' := by simpa using congrArg PortState.resp hans.answered
    obtain rfl : r = r' := Option.some.inj (hr.symm.trans hresp)
    exact hchange.sameBlock_of_not_ok hok
  case put =>
    obtain ⟨w, r, hd, hresp, hchange⟩ := hs.blockChange h
    obtain rfl : _ = r := Option.some.inj (hr.symm.trans hresp)
    exact hchange.cnt_of_put_ok hd rfl
  case get =>
    obtain ⟨w, r, hd, hresp, hchange⟩ := hs.blockChange h
    obtain rfl : _ = r := Option.some.inj (hr.symm.trans hresp)
    exact hchange.cnt_of_get_ok hd rfl

/-! ### Two requests pending together -/

/-- One operation on the bounded list of bytes: the response, and the list after. -/
def queueOp (cap : Nat) (q : List Byte) : Instr → Response × List Byte
  | .clear => (⟨.ok, 0⟩, [])
  | .capacity => (⟨.ok, cap⟩, q)
  | .put b => queuePut cap q b
  | .get => queueGet q
  | .peek => queuePeek q
  | .count => (⟨.ok, q.length⟩, q)

theorem queuePerform_of_decode {cap : Nat} {q : List Byte} {p : Port} {w : Request} {i : Instr}
    (h : decode p w = .op i) : queuePerform cap q p w = queueOp cap q i := by
  cases i <;> simp [queuePerform, queueOp, h]

/-- A pending operation can be performed, and does what it does to the bounded list; the other port stays. -/
theorem State.pendingOp.performs {p : Port} {i : Instr} {s : State} (hop : s.pendingOp p i) (hs : s.Inv) :
    ∃ t, performPort p s = .next t ∧ t.Inv ∧ t.cfg = s.cfg ∧ t.port p.other = s.port p.other ∧
      (t.port p).resp = some (queueOp s.cfg.cap s.queue i).1 ∧ t.queue = (queueOp s.cfg.cap s.queue i).2 := by
  have ⟨w, hw, _⟩ := hop
  obtain ⟨t, ht⟩ := performPort_exists hw hs.bounds.rd_lt hs.bounds.wr_lt
  obtain ⟨w', hd, hresp, hqueue⟩ := hop.performPort_queuePerform hs.bounds hs.ring ht
  obtain ⟨-, -, -, -, hother, -⟩ := performPort_frame ht
  rw [queuePerform_of_decode hd] at hresp hqueue
  exact ⟨t, ht, performPort_inv hs ht, performPort_cfg ht, hother, hresp, hqueue⟩

/-- Operations pending on both ports can be performed one after the other: the second meets the list the first
leaves, and the first port keeps its response. -/
theorem State.pendingOp.performs_both {p : Port} {i j : Instr} {s : State} (hi : s.pendingOp p i)
    (hj : s.pendingOp p.other j) (hs : s.Inv) :
    ∃ t, performOrder [p, p.other] s = .next t ∧
      (t.port p).resp = some (queueOp s.cfg.cap s.queue i).1 ∧
      (t.port p.other).resp = some (queueOp s.cfg.cap (queueOp s.cfg.cap s.queue i).2 j).1 ∧
      t.queue = (queueOp s.cfg.cap (queueOp s.cfg.cap s.queue i).2 j).2 := by
  obtain ⟨u, hu, huinv, hcfg, hother, hresp, hqueue⟩ := hi.performs hs
  have hj' : u.pendingOp p.other j := by
    rw [State.pendingOp, hother]
    exact hj
  obtain ⟨t, ht, -, -, hkept, hresp', hqueue'⟩ := hj'.performs huinv
  rw [Port.other_other] at hkept
  rw [hcfg, hqueue] at hresp' hqueue'
  exact ⟨t, by simp only [performOrder, hu, ht], by rw [hkept, hresp], hresp', hqueue'⟩

theorem queuePut_of_full {cap : Nat} {q : List Byte} (h : q.length = cap) (b : Byte) :
    queuePut cap q b = (⟨.full, 0⟩, q) := if_pos h

theorem queuePut_of_room {cap : Nat} {q : List Byte} (h : q.length ≠ cap) (b : Byte) :
    queuePut cap q b = (⟨.ok, 0⟩, q ++ [b]) := if_neg h

/-- The count of a state is the length of the list it leaves. -/
theorem State.cnt_of_queue {s : State} {q : List Byte} (h : s.queue = q) : s.cnt = q.length := by
  rw [← h, s.queue_length]

/-- Settles O53: the two operations on the list, in either order. -/
theorem clearRacesDependOnTheOrder : Obligations.ClearRacesDependOnTheOrder := by
  refine ⟨fun s b hs _ hput hclear => ?_, fun s hs hcnt hclear hget => ?_⟩
  · have hroom : ([] : List Byte).length ≠ s.cfg.cap := Nat.ne_of_lt s.cfg.cap_pos
    obtain ⟨t, ht, -, -, hqueue⟩ := hput.performs_both hclear hs
    obtain ⟨u, hu, -, -, huqueue⟩ := hclear.performs_both hput hs
    have hu1 : u.queue = [b] := by simpa [queueOp, queuePut_of_room hroom] using huqueue
    exact ⟨⟨t, ht, State.cnt_of_queue hqueue, hqueue⟩, ⟨u, hu, State.cnt_of_queue hu1, hu1⟩⟩
  · obtain ⟨q, hq⟩ := State.queue_head hs.bounds.rd_lt hcnt
    obtain ⟨t, ht, -, hresp, -⟩ := hclear.performs_both hget hs
    obtain ⟨u, hu, huresp, -, huqueue⟩ := hget.performs_both hclear hs
    rw [hq] at huresp
    exact ⟨⟨t, ht, hresp⟩, ⟨u, hu, huresp, State.cnt_of_queue huqueue⟩⟩

/-- Settles O54: the two operations on a list at its bound, in either order. -/
theorem putAndGetTogetherAtAFullBuffer : Obligations.PutAndGetTogetherAtAFullBuffer := by
  intro s b hs hfull hput hget
  have hcap := s.cfg.cap_pos
  obtain ⟨q, hq⟩ := State.queue_head hs.bounds.rd_lt (by omega : s.cnt ≠ 0)
  have hlen : q.length + 1 = s.cfg.cap := by rw [← hfull, ← s.queue_length, hq, List.length_cons]
  obtain ⟨t, ht, hget1, hput2, htqueue⟩ := hget.performs_both hput hs
  obtain ⟨u, hu, hput1, hget2, huqueue⟩ := hput.performs_both hget hs
  have hroom : q.length ≠ s.cfg.cap := by omega
  simp only [queueOp, hq, queueGet, queuePut_of_room hroom] at hget1 hput2 htqueue
  simp only [queueOp, hq, queuePut_of_full (q := s.memRead s.rd :: q) hlen, queueGet] at hput1 hget2 huqueue
  have htcnt := State.cnt_of_queue htqueue
  have hucnt := State.cnt_of_queue huqueue
  rw [List.length_append, List.length_singleton] at htcnt
  exact ⟨⟨t, ht, hput2, hget1, by omega⟩, ⟨u, hu, hput1, hget2, by omega⟩⟩

end Sys2Proof.Machine
